-- ==== Sys2Proof/Word.lean ====
section
/-! DEFINITION. The two words the spec treats as bits: a byte of MEM (00_scope.md R5, 20_memory.md R32) and a
command word (30_encoding.md R50). Lengths, addresses and counts are natural numbers (00_scope.md R7). -/

namespace Sys2Proof

/-- One element of MEM or of a byte sequence: 8 bits, unsigned (00_scope.md R5, R7). -/
abbrev Byte := BitVec 8

/-- One value of CMD, the 8-bit format CMD8 (30_encoding.md R50). -/
abbrev CmdWord := BitVec 8

end Sys2Proof
end

