-- ==== Sys2Proof/Config.lean ====
section
/-! DEFINITION. What is fixed for one machine: the open parameter ADDR_BITS (00_scope.md R6), the constants of
00_scope.md R5, and what a byte of memory that nothing has written reads as. -/

namespace Sys2Proof

/-- The implementation parameter of 00_scope.md R6. "It is a natural number of at least 1, and the model takes it as
an argument": every statement about a state quantifies over it, since State holds it as its constant part. -/
structure Config where
  /-- ADDR_BITS, the width in bits of an address, a length and a capacity. -/
  addrBits : Nat
  addrBits_pos : 0 < addrBits
  deriving DecidableEq, Repr

/-- The size of MEM, 2^ADDR_BITS bytes (00_scope.md R6, 20_memory.md R32). -/
def Config.memSize (c : Config) : Nat := 2 ^ c.addrBits

/-- The parameter of State.reset, ADDR_BITS = 16, as 95_test_vectors.md takes it "unless a vector says otherwise".
DESIGN CHOICE (log entry 2): unsafe for a claim about runs from State.reset, and for no other. -/
def Config.adopted : Config := ⟨16, by decide⟩

/-- SPECIAL, the special byte and delimiter (00_scope.md R2, R5). -/
def Config.special : Byte := 0x00

/-- ESC, the escape code, as a number (00_scope.md R5). -/
def Config.escape : Nat := 255

/-- MAXRUN, the largest number of literal bytes in one block (00_scope.md R5). -/
def Config.maxRun : Nat := 254

/-- What an address that memory does not list reads as. DESIGN CHOICE (log entry 3): the spec takes MEM at power-up as
arbitrary (70_reset_and_hazards.md R121); unsafe for a claim that rests on this value. -/
def Config.unlistedByte : Byte := 0x00

end Sys2Proof
end

