-- ==== Sys2Proof/Syntax.lean ====
section
/-! DEFINITION. The terms of the model: the fields of a command word, the instructions (one constructor per row of
spec/opcode_table.json), the interface registers' names, the host's actions, and the assembler's statements. -/

namespace Sys2Proof

/-- The fields of a command word (10_state.md R15, 30_encoding.md R50). -/
structure CmdFields where
  /-- RSV, bits 7:3. -/
  rsv : BitVec 5
  /-- D, bit 2. -/
  d : Bool
  /-- OP, bits 1:0. -/
  op : BitVec 2
  deriving DecidableEq, Repr

/-- The commands (30_encoding.md R51, R52), one constructor per row of the opcode table. Operands are no part of the
command word: each command takes them from ARG registers (30_encoding.md R55). -/
inductive Instr where
  /-- BUFSIZE, and BUFSIZE.D with `withDelimiter = true` (40_size_estimator.md R66). -/
  | bufsize (withDelimiter : Bool)
  /-- ENCODE, and ENCODE.D with `withDelimiter = true` (41_encoder.md R71). -/
  | encode (withDelimiter : Bool)
  /-- DECODE (42_decoder.md R85). -/
  | decode
  /-- DECIP, the spec's DECODE_INPLACE (43_inplace_decoder.md R101). -/
  | decip
  deriving DecidableEq, Repr

/-- The four operand registers (10_state.md R14). -/
inductive ArgIndex where
  | arg0
  | arg1
  | arg2
  | arg3
  deriving DecidableEq, Repr

/-- The six interface registers (10_state.md R14). -/
inductive RegName where
  | cmd
  | arg (k : ArgIndex)
  | result
  deriving DecidableEq, Repr

/-- What the outside can do to the block between commands (70_reset_and_hazards.md R125), and reset (R121). -/
inductive HostAction where
  /-- Write the number `v` to an ARG register. -/
  | writeArg (k : ArgIndex) (v : Nat)
  /-- Write a command word to CMD, which issues it (10_state.md R16). -/
  | writeCmd (v : CmdWord)
  /-- Write to RESULT, which "has no effect" (10_state.md R14). -/
  | writeResult (v : Nat)
  /-- Write one byte of MEM. -/
  | writeMem (a : Nat) (b : Byte)
  /-- Read an interface register. -/
  | readReg (r : RegName)
  /-- Read one byte of MEM. -/
  | readMem (a : Nat)
  /-- Reset the block (70_reset_and_hazards.md R121, R123). -/
  | reset
  deriving DecidableEq, Repr

/-- A statement of the spec's assembler (30_encoding.md R56), with its operands. -/
inductive Statement where
  /-- `BUFSIZE n` and `BUFSIZE.D n`. -/
  | bufsize (withDelimiter : Bool) (n : Nat)
  /-- `ENCODE in, n, out, cap` and `ENCODE.D in, n, out, cap`. -/
  | encode (withDelimiter : Bool) (inBase n outBase cap : Nat)
  /-- `DECODE in, L, out, C`. -/
  | decode (inBase len outBase cap : Nat)
  /-- `DECIP buf, L`. -/
  | decip (bufBase len : Nat)
  deriving DecidableEq, Repr

end Sys2Proof
end

