-- ==== Sys2Proof/WellFormed.lean ====
section
/-! DEFINITION. The static checks: which field values name a command (30_encoding.md R52 to R54), and which host
actions the spec gives the host (70_reset_and_hazards.md R125, 20_memory.md R32). -/

namespace Sys2Proof

/-- The fields name a command: RSV is 0 (30_encoding.md R53), and D is 0 for OP = 2 and OP = 3 (R52). -/
def CmdFields.wf (f : CmdFields) : Bool :=
  f.rsv == 0 && !(f.d && f.op.getLsbD 1)

/-- The fields of an instruction's command word (30_encoding.md R51, R52). -/
def Instr.fields : Instr → CmdFields
  | .bufsize d => ⟨0, d, 0⟩
  | .encode d => ⟨0, d, 1⟩
  | .decode => ⟨0, false, 2⟩
  | .decip => ⟨0, false, 3⟩

/-- An instruction is well formed when its fields are. -/
def Instr.wf (i : Instr) : Bool := i.fields.wf

/-- A host action the spec gives the host: an ARG value is "a number < 2^ADDR_BITS" (70_reset_and_hazards.md R125),
and MEM has the addresses 0 to 2^ADDR_BITS - 1 (20_memory.md R32). -/
def HostAction.wf (c : Config) : HostAction → Bool
  | .writeArg _ v => decide (v < c.memSize)
  | .writeCmd _ => true
  | .writeResult _ => true
  | .writeMem a _ => decide (a < c.memSize)
  | .readReg _ => true
  | .readMem a => decide (a < c.memSize)
  | .reset => true

/-- A statement's operands are ADDR_BITS-bit values (30_encoding.md R55). -/
def Statement.wf (c : Config) : Statement → Bool
  | .bufsize _ n => decide (n < c.memSize)
  | .encode _ i n o cap =>
    decide (i < c.memSize) && decide (n < c.memSize) && decide (o < c.memSize) && decide (cap < c.memSize)
  | .decode i l o cap =>
    decide (i < c.memSize) && decide (l < c.memSize) && decide (o < c.memSize) && decide (cap < c.memSize)
  | .decip b l => decide (b < c.memSize) && decide (l < c.memSize)

end Sys2Proof
end

