-- ==== Sys2Proof/Decode.lean ====
section
/-! DEFINITION. Decoding a command word, total over its 256 values (30_encoding.md R54), and after it the encoder. -/

namespace Sys2Proof

/-- Why a command word is reserved (30_encoding.md R52, R53). -/
inductive Reserved where
  /-- RSV is not 0 (R53). -/
  | reservedField
  /-- D = 1 with OP = 2 or OP = 3 (R52). -/
  | delimiterOnDecode
  deriving DecidableEq, Repr

/-- What decoding answers: a command, or a reserved encoding by name. -/
inductive Decoded where
  | command (i : Instr)
  | reserved (why : Reserved)
  deriving DecidableEq, Repr

/-- CMD[7:3], CMD[2] and CMD[1:0] (10_state.md R15, 30_encoding.md R50). -/
def splitFields (v : CmdWord) : CmdFields :=
  { rsv := v.extractLsb' 3 5, d := v.getLsbD 2, op := v.extractLsb' 0 2 }

/-- The command that OP and D select when RSV is 0 (30_encoding.md R51, R52). -/
def selectCommand (d : Bool) (op : BitVec 2) : Decoded :=
  if op = 0 then .command (.bufsize d)
  else if op = 1 then .command (.encode d)
  else if d then .reserved .delimiterOnDecode
  else if op = 2 then .command .decode
  else .command .decip

/-- Decoding of a command word (30_encoding.md R54). -/
def decode (v : CmdWord) : Decoded :=
  if (splitFields v).rsv = 0 then selectCommand (splitFields v).d (splitFields v).op
  else .reserved .reservedField

/-- The instruction decoding gives, if any. -/
def Decoded.toOption : Decoded → Option Instr
  | .command i => some i
  | .reserved _ => none

/-- The word with these fields at the places of 30_encoding.md R50: RSV in 7:3, D in 2, OP in 1:0. -/
def joinFields (f : CmdFields) : CmdWord :=
  f.rsv ++ BitVec.ofBool f.d ++ f.op

/-- The command word of an instruction (30_encoding.md R54). -/
def encode (i : Instr) : CmdWord := joinFields i.fields

/-- The decoder on a table row's word: a command word has 8 bits, "no command word is longer or shorter"
(30_encoding.md R50), so any other size is no command. -/
def decodeTableWord (nbits w : Nat) : Option Instr :=
  if nbits = 8 then (decode (BitVec.ofNat 8 w)).toOption else none

end Sys2Proof
end

