-- ==== Sys2Proof/Machine/State.lean ====
section
/-! DEFINITION. The machine's state as plain data (10_state.md R14, R28; 20_memory.md R32), why a step can stop
(00_scope.md R10, 60_exceptions.md R110), and the state after reset (70_reset_and_hazards.md R121). -/

namespace Sys2Proof.Machine

/-- What an interface register holds. `unwritten` is the spec's own reset state of a register, "no value (unwritten)"
(10_state.md R14, 70_reset_and_hazards.md R121), which 10_state.md R19 gives a meaning: reading it is
FAULT_UNWRITTEN_REG. The spec states it (log entry 1). -/
inductive Reg (α : Type) where
  | unwritten
  | value (v : α)
  deriving DecidableEq, Repr

/-- Why the machine stops with a fault. -/
inductive Fault where
  /-- FAULT_UNWRITTEN_REG (10_state.md R19): raised by a command that reads an ARG register, and by a host read of a
  register, that has held no value since reset. The spec's own outcome; safe. -/
  | unwrittenReg
  /-- A host access to an address MEM does not have, at or above 2^ADDR_BITS (20_memory.md R32): raised by the host
  actions writeMem and readMem. The spec gives the host no such move; safe. -/
  | noSuchAddress
  deriving DecidableEq, Repr

/-- Why the model gives an action no meaning. -/
inductive Refusal where
  /-- An instruction with no meaning in this model. No arm of exec raises it. -/
  | notModelled (mnemonic : String)
  /-- REFUSE_RESERVED_CMD (30_encoding.md R54): raised by a write of a reserved value to CMD. The spec's own outcome;
  safe. -/
  | reservedCmd
  /-- REFUSE_WINDOW_RANGE (20_memory.md R34): raised by ENCODE, DECODE and DECIP. The spec's own outcome; safe. -/
  | windowRange
  /-- REFUSE_ENCODE_OVERLAP (20_memory.md R40): raised by ENCODE. The spec's own outcome; safe. -/
  | encodeOverlap
  /-- REFUSE_DECODE_OVERLAP (20_memory.md R41): raised by DECODE. The spec's own outcome; safe. -/
  | decodeOverlap
  /-- A host write to an ARG register of a number of more than ADDR_BITS bits (70_reset_and_hazards.md R125): raised
  by the host action writeArg. The spec gives the host no such move; safe. -/
  | argValueRange
  deriving DecidableEq, Repr

/-- An outcome other than ok (00_scope.md R10), as the record of 60_exceptions.md R110 holds it. -/
inductive Stop where
  | fault (f : Fault)
  | refused (r : Refusal)
  deriving DecidableEq, Repr

/-- The contents of MEM: the addresses that do not read as Config.unlistedByte, with their bytes, addresses rising
(Machine/Ops.lean's Memory.wf is the canonical form). -/
abbrev Memory := List Host.Cell

/-- The state that persists between commands (10_state.md R28), the machine's parameter, and the host agent
(10_state.md R21): the actions it has still to take, and what its reads have returned. Registers other than CMD hold
natural numbers, their widths being an invariant (DEDUCED, log entry 9: safe). -/
structure State where
  /-- ADDR_BITS (00_scope.md R6); no step changes it. -/
  cfg : Config
  cmd : Reg CmdWord
  arg0 : Reg Nat
  arg1 : Reg Nat
  arg2 : Reg Nat
  arg3 : Reg Nat
  result : Reg Nat
  mem : Memory
  /-- The record of a refusal or fault (00_scope.md R10, 60_exceptions.md R110). -/
  record : Option Stop
  /-- The host's remaining actions, the next one first (70_reset_and_hazards.md R125). -/
  hostActions : List HostAction
  /-- What the host's reads have returned, the newest first (70_reset_and_hazards.md R125). -/
  hostGot : List Nat
  deriving DecidableEq, Repr

/-- A machine right after reset with the parameter `c` and MEM holding `m` (70_reset_and_hazards.md R121): "A model
takes MEM's contents as an arbitrary initial memory". -/
def State.resetWith (c : Config) (m : Memory) : State :=
  { cfg := c, cmd := .unwritten, arg0 := .unwritten, arg1 := .unwritten, arg2 := .unwritten, arg3 := .unwritten,
    result := .unwritten, mem := m, record := none, hostActions := [], hostGot := [] }

/-- The machine right after reset: the registers and the record as 70_reset_and_hazards.md R121 says; ADDR_BITS (log
entry 2) and memory with nothing listed (log entry 3) are the model's choices. -/
def State.reset : State := State.resetWith Config.adopted []

end Sys2Proof.Machine
end

