-- ==== Sys2Proof/Machine/Ops.lean ====
section
/-! DEFINITION. The shared operations: bytes of memory, the engine's memory port, windows, the interface registers,
completing a command, and recording a stop. -/

namespace Sys2Proof.Machine

/-! ### Bytes of MEM -/

/-- MemRead(a, 1): the byte at address `a` (00_scope.md R9). -/
def Memory.read : Memory → Nat → Byte
  | [], _ => Config.unlistedByte
  | c :: rest, a => if c.1 = a then c.2 else Memory.read rest a

/-- List the byte `b` at address `a`, keeping addresses rising. -/
def Memory.list : Memory → Nat → Byte → Memory
  | [], a, b => [(a, b)]
  | c :: rest, a, b =>
    if a < c.1 then (a, b) :: c :: rest
    else if a = c.1 then (a, b) :: rest
    else c :: Memory.list rest a b

/-- MemWrite(a, 1, b): set the byte at address `a` (00_scope.md R9). Writing what an unlisted address reads as removes
the entry, so that equal memories are equal lists. -/
def Memory.write (m : Memory) (a : Nat) (b : Byte) : Memory :=
  if b = Config.unlistedByte then m.filter (fun c => c.1 != a) else Memory.list m a b

/-- The canonical form: addresses strictly rising, and no entry equal to what an unlisted address reads as. -/
abbrev Memory.wf (m : Memory) : Prop :=
  List.Pairwise (fun c e => c.1 < e.1) m ∧ ∀ c ∈ m, c.2 ≠ Config.unlistedByte

/-- Set consecutive bytes from address `a` on: the host placing a buffer, one byte after the other. -/
def Memory.writeBytes : Memory → Nat → List Byte → Memory
  | m, _, [] => m
  | m, a, b :: bs => Memory.writeBytes (Memory.write m a b) (a + 1) bs

/-! ### The engine's memory port -/

/-- One memory access of the engine, which always moves one byte (20_memory.md R35). -/
inductive Access where
  | read (a : Nat)
  | write (a : Nat) (b : Byte)
  deriving DecidableEq, Repr

/-- MEM as a command sees it while it runs, with the accesses the command has made, the newest first
(20_memory.md R43). The accesses are a ghost for statements: nothing depends on them. -/
structure Port where
  mem : Memory
  accesses : List Access
  deriving DecidableEq, Repr

/-- The port at a command's start. -/
def Port.start (m : Memory) : Port := ⟨m, []⟩

/-- The byte a read at `a` returns. -/
def Port.byteAt (p : Port) (a : Nat) : Byte := Memory.read p.mem a

/-- The port after a read at `a`. -/
def Port.afterRead (p : Port) (a : Nat) : Port := { p with accesses := .read a :: p.accesses }

/-- The port after a write of `b` at `a`. -/
def Port.afterWrite (p : Port) (a : Nat) (b : Byte) : Port :=
  { mem := Memory.write p.mem a b, accesses := .write a b :: p.accesses }

/-- The addresses read, in the order given. -/
def readAddrs : List Access → List Nat
  | [] => []
  | .read a :: rest => a :: readAddrs rest
  | .write _ _ :: rest => readAddrs rest

/-- The addresses written, in the order given. -/
def writeAddrs : List Access → List Nat
  | [] => []
  | .read _ :: rest => writeAddrs rest
  | .write a _ :: rest => a :: writeAddrs rest

/-! ### Windows -/

/-- A window (base, len) of MEM (20_memory.md R33). -/
structure Window where
  base : Nat
  len : Nat
  deriving DecidableEq, Repr

/-- The window lies in MEM: base + len <= 2^ADDR_BITS, computed exactly (20_memory.md R34). -/
def Window.inRange (w : Window) (c : Config) : Bool := decide (w.base + w.len ≤ c.memSize)

/-- The two windows share an address (20_memory.md R40). -/
def Window.overlaps (x y : Window) : Bool :=
  decide (0 < x.len) && decide (0 < y.len) && decide (x.base < y.base + y.len) && decide (y.base < x.base + x.len)

/-- The byte sequence a window holds (20_memory.md R33). -/
def Window.bytes (w : Window) (m : Memory) : List Byte :=
  (List.range w.len).map (fun k => Memory.read m (w.base + k))

/-! ### The interface registers (10_state.md R14) -/

/-- The ARG register `k`. -/
def readArg (s : State) : ArgIndex → Reg Nat
  | .arg0 => s.arg0
  | .arg1 => s.arg1
  | .arg2 => s.arg2
  | .arg3 => s.arg3

/-- The state with the ARG register `k` holding `v`. -/
def writeArg (s : State) (k : ArgIndex) (v : Nat) : State :=
  match k with
  | .arg0 => { s with arg0 := .value v }
  | .arg1 => { s with arg1 := .value v }
  | .arg2 => { s with arg2 := .value v }
  | .arg3 => { s with arg3 := .value v }

/-- What a register holds after a change of its reading: `unwritten` stays `unwritten`. -/
def Reg.map {α β : Type} (f : α → β) : Reg α → Reg β
  | .unwritten => .unwritten
  | .value v => .value (f v)

/-- The interface register `r`, as an unsigned number (10_state.md R14). -/
def readReg (s : State) : RegName → Reg Nat
  | .cmd => Reg.map BitVec.toNat s.cmd
  | .arg k => readArg s k
  | .result => s.result

/-! ### Outcomes (00_scope.md R10) -/

/-- What a command or a host action answers. -/
abbrev Result := Host.Outcome State Fault Refusal

/-- A command's normal end, `return count`: RESULT is written and MEM is as the command leaves it
(00_scope.md R9, R10; 10_state.md R18). Nothing else changes (10_state.md R17). -/
def complete (count : Nat) (m : Memory) (s : State) : Result :=
  .next { s with result := .value count, mem := m }

/-- Recording a fault or a refusal (00_scope.md R10, 60_exceptions.md R110): neither MEM nor RESULT is written, and
the outcome stands in the record. The block has no trap to take instead (60_exceptions.md R109, R113). -/
def recordStop (s : State) (x : Stop) : State := { s with record := some x }

/-- What an action that began in `s` leaves: the state an ok outcome gives, or `s` with the fault or refusal
recorded. -/
def settle (s : State) : Result → State
  | .next t => t
  | .fault f => recordStop s (.fault f)
  | .refused r => recordStop s (.refused r)

end Sys2Proof.Machine
end

