-- ==== Sys2Proof/Machine/Flags.lean ====
section
/-! DEFINITION. The block has no flags (10_state.md R20); what a flag would signal is RESULT = 0. This file holds the
size formula and the conditions under which a command fails that way (60_exceptions.md R106 to R108). -/

namespace Sys2Proof.Machine

/-- D as a number. -/
def delimiterLength (d : Bool) : Nat := if d then 1 else 0

/-- BUFSIZE(n, d) = n + floor(n / 254) + 1 + d, exact (40_size_estimator.md R66). -/
def bufferSize (n : Nat) (d : Bool) : Nat := n + n / Config.maxRun + 1 + delimiterLength d

/-- ENCODE's InsufficientOutputBuffer: cap < BUFSIZE(n, d) (41_encoder.md R72, 60_exceptions.md R107). -/
def encodeFails (n cap : Nat) (d : Bool) : Bool := decide (cap < bufferSize n d)

/-- InputTooShort of DECODE and DECIP: L < 2 (60_exceptions.md R108). -/
def inputTooShort (len : Nat) : Bool := decide (len < 2)

/-- DECODE's InsufficientOutputBuffer: C = 0 or C < L - 1 (60_exceptions.md R108). -/
def insufficientOutput (len cap : Nat) : Bool := decide (cap = 0) || decide (cap < len - 1)

/-- DECODE fails: L < 2 or C = 0 or C < L - 1 (42_decoder.md R86). -/
def decodeFails (len cap : Nat) : Bool := inputTooShort len || insufficientOutput len cap

end Sys2Proof.Machine
end

