-- ==== Sys2Proof/Machine/Operands.lean ====
section
/-! DEFINITION. The operands of the commands (30_encoding.md R55): ARG registers read as unsigned numbers, each only
where the command uses it. -/

namespace Sys2Proof.Machine

/-- The ARG registers each command reads (30_encoding.md R55). -/
def operandRegs : Instr → List ArgIndex
  | .bufsize _ => [.arg0]
  | .encode _ => [.arg0, .arg1, .arg2, .arg3]
  | .decode => [.arg0, .arg1, .arg2, .arg3]
  | .decip => [.arg0, .arg1]

/-- Read the ARG register `k` and go on with its value. An unwritten one is FAULT_UNWRITTEN_REG: the spec states this
stop (10_state.md R19, 60_exceptions.md R110, 92_eei_decisions.md D6) and has "no value to return" for the read. -/
def withOperand (s : State) (k : ArgIndex) (use : Nat → Result) : Result :=
  match readArg s k with
  | .unwritten => .fault .unwrittenReg
  | .value v => use v

/-- The operand of BUFSIZE: n = ARG0. -/
def withLength (s : State) (use : Nat → Result) : Result := withOperand s .arg0 use

/-- The operands of ENCODE and DECODE: the input window (ARG0, ARG1) and the output window (ARG2, ARG3). -/
def withTwoWindows (s : State) (use : Window → Window → Result) : Result :=
  withOperand s .arg0 fun inBase =>
  withOperand s .arg1 fun inLen =>
  withOperand s .arg2 fun outBase =>
  withOperand s .arg3 fun outCap =>
  use ⟨inBase, inLen⟩ ⟨outBase, outCap⟩

/-- The operands of DECIP: the window (ARG0, ARG1). -/
def withOneWindow (s : State) (use : Window → Result) : Result :=
  withOperand s .arg0 fun bufBase =>
  withOperand s .arg1 fun bufLen =>
  use ⟨bufBase, bufLen⟩

end Sys2Proof.Machine
end

