-- ==== Sys2Proof/Machine/Decoder.lean ====
section
/-! DEFINITION. DECODE, the decoder (42_decoder.md R85 to R100): its per-command variables, its steps one by one, and
the command. -/

namespace Sys2Proof.Machine

/-- The per-command variables of DECODE and DECIP (10_state.md R27), with the memory port. They exist only while the
command runs. -/
structure DecodeVars where
  port : Port
  /-- Read cursor: input offset of the next input byte. -/
  r : Nat
  /-- Write cursor: output offset of the next output byte. -/
  w : Nat
  /-- The current block's code after clamping. -/
  code : Nat
  deriving DecidableEq, Repr

/-- The start: both cursors at the windows' origins (42_decoder.md R85). -/
def decodeStart (m : Memory) : DecodeVars := { port := Port.start m, r := 0, w := 0, code := 0 }

/-- Read the code byte and clamp it to the bytes left, the code byte included (42_decoder.md R87). -/
def decodeReadCode (inp : Window) (v : DecodeVars) : DecodeVars :=
  { port := v.port.afterRead (inp.base + v.r), r := v.r + 1, w := v.w,
    code := min (v.port.byteAt (inp.base + v.r)).toNat (inp.len - v.r) }

/-- Copy one literal byte and advance both cursors (42_decoder.md R89). -/
def decodeCopyByte (inp out : Window) (v : DecodeVars) : DecodeVars :=
  { v with port := (v.port.afterRead (inp.base + v.r)).afterWrite (out.base + v.w) (v.port.byteAt (inp.base + v.r)),
           r := v.r + 1, w := v.w + 1 }

/-- Copy `k` literal bytes, in increasing offset order (42_decoder.md R89). -/
def decodeCopy (inp out : Window) : Nat → DecodeVars → DecodeVars
  | 0, v => v
  | k + 1, v => decodeCopy inp out k (decodeCopyByte inp out v)

/-- One block: its code, then max(code - 1, 0) literals (42_decoder.md R87 to R89). -/
def decodeBlock (inp out : Window) (v : DecodeVars) : DecodeVars :=
  decodeCopy inp out ((decodeReadCode inp v).code - 1) (decodeReadCode inp v)

/-- The variables after the read that looks for the delimiter (42_decoder.md R90). -/
def decodePeek (inp : Window) (v : DecodeVars) : DecodeVars :=
  { v with port := v.port.afterRead (inp.base + v.r) }

/-- The implied zero, unless the block's code was the escape code (42_decoder.md R91). -/
def decodeImpliedZero (out : Window) (v : DecodeVars) : DecodeVars :=
  if v.code = Config.escape then v
  else { v with port := v.port.afterWrite (out.base + v.w) Config.special, w := v.w + 1 }

/-- The loop of 42_decoder.md R85, at most `fuel` blocks. 42_decoder.md R95 bounds the blocks by L, so a loop given L
never runs out of fuel. DEDUCED (log entry 10): safe where that bound holds. -/
def decodeLoop (inp out : Window) : Nat → DecodeVars → DecodeVars
  | 0, v => v
  | fuel + 1, v =>
    if inp.len ≤ (decodeBlock inp out v).r then decodeBlock inp out v
    else if (decodeBlock inp out v).port.byteAt (inp.base + (decodeBlock inp out v).r) = Config.special then
      decodePeek inp (decodeBlock inp out v)
    else decodeLoop inp out fuel (decodeImpliedZero out (decodePeek inp (decodeBlock inp out v)))

/-- The whole loop of a DECODE whose checks have passed (42_decoder.md R85, R95). -/
def decodeRun (inp out : Window) (m : Memory) : DecodeVars :=
  decodeLoop inp out inp.len (decodeStart m)

/-- DECODE "from its failure check onward" (42_decoder.md R85, R86; 43_inplace_decoder.md R101). -/
def decodeWindows (inp out : Window) (s : State) : Result :=
  if decodeFails inp.len out.len then complete 0 s.mem s
  else complete (decodeRun inp out s.mem).w (decodeRun inp out s.mem).port.mem s

/-- The overlap that DECODE refuses (20_memory.md R41): the windows share an address and OUT_BASE > IN_BASE. -/
def decodeOverlaps (inp out : Window) : Bool := inp.overlaps out && decide (inp.base < out.base)

/-- DECODE (42_decoder.md R85), the checks in the order of 60_exceptions.md R111. -/
def execDecode (s : State) : Result :=
  withTwoWindows s fun inp out =>
    if !(inp.inRange s.cfg && out.inRange s.cfg) then .refused .windowRange
    else if decodeOverlaps inp out then .refused .decodeOverlap
    else decodeWindows inp out s

end Sys2Proof.Machine
end

