-- ==== Sys2Proof/Machine/Encoder.lean ====
section
/-! DEFINITION. ENCODE, the encoder (41_encoder.md R71 to R84): its per-command variables, its steps one by one, and
the command. -/

namespace Sys2Proof.Machine

/-- ENCODE's per-command variables (10_state.md R26), with the memory port. They exist only while the command runs. -/
structure EncodeVars where
  port : Port
  /-- Offset of the next input byte. -/
  i : Nat
  /-- Offset of the next free output byte. -/
  o : Nat
  /-- Output offset reserved for the current block's code byte. -/
  slot : Nat
  /-- The current block's code value. -/
  code : Nat
  deriving DecidableEq, Repr

/-- The start (41_encoder.md R73): slot = 0, o = 1, code = 1. -/
def encodeStart (m : Memory) : EncodeVars := { port := Port.start m, i := 0, o := 1, slot := 0, code := 1 }

/-- Finish the current block and open a new one (41_encoder.md R74). -/
def encodeFinishBlock (out : Window) (v : EncodeVars) : EncodeVars :=
  { port := v.port.afterWrite (out.base + v.slot) (BitVec.ofNat 8 v.code), i := v.i, o := v.o + 1, slot := v.o, code := 1 }

/-- Copy the non-zero byte `b` to the current block (41_encoder.md R75, item 1). -/
def encodeLiteral (out : Window) (b : Byte) (v : EncodeVars) : EncodeVars :=
  { v with port := v.port.afterWrite (out.base + v.o) b, o := v.o + 1, code := v.code + 1 }

/-- The forced split (41_encoder.md R75, items 2 and 3): a block of 254 literals is finished when more input follows. -/
def encodeForceSplit (inp out : Window) (v : EncodeVars) : EncodeVars :=
  if v.code = Config.escape ∧ v.i + 1 < inp.len then encodeFinishBlock out v else v

/-- The current byte has been dealt with. -/
def encodeAdvance (v : EncodeVars) : EncodeVars := { v with i := v.i + 1 }

/-- The byte ENCODE is about to read, and the variables once it is read. -/
def encodeFetch (inp : Window) (v : EncodeVars) : EncodeVars :=
  { v with port := v.port.afterRead (inp.base + v.i) }

/-- One input byte (41_encoder.md R71, the loop's body). -/
def encodeByte (inp out : Window) (v : EncodeVars) : EncodeVars :=
  encodeAdvance
    (if v.port.byteAt (inp.base + v.i) = Config.special then encodeFinishBlock out (encodeFetch inp v)
     else encodeForceSplit inp out (encodeLiteral out (v.port.byteAt (inp.base + v.i)) (encodeFetch inp v)))

/-- `k` input bytes, one after the other. -/
def encodeScan (inp out : Window) : Nat → EncodeVars → EncodeVars
  | 0, v => v
  | k + 1, v => encodeScan inp out k (encodeByte inp out v)

/-- The final code (41_encoder.md R76). -/
def encodeFinalCode (out : Window) (v : EncodeVars) : EncodeVars :=
  { v with port := v.port.afterWrite (out.base + v.slot) (BitVec.ofNat 8 v.code) }

/-- The trailing delimiter when d = 1 (41_encoder.md R76). -/
def encodeDelimiter (out : Window) (d : Bool) (v : EncodeVars) : EncodeVars :=
  if d then { v with port := v.port.afterWrite (out.base + v.o) Config.special, o := v.o + 1 } else v

/-- The whole scan of an ENCODE whose checks have passed (41_encoder.md R71). -/
def encodeRun (inp out : Window) (d : Bool) (m : Memory) : EncodeVars :=
  encodeDelimiter out d (encodeFinalCode out (encodeScan inp out inp.len (encodeStart m)))

/-- ENCODE once its windows are accepted: the capacity check, then the scan (41_encoder.md R71, R72). -/
def encodeWindows (d : Bool) (inp out : Window) (s : State) : Result :=
  if encodeFails inp.len out.len d then complete 0 s.mem s
  else complete (encodeRun inp out d s.mem).o (encodeRun inp out d s.mem).port.mem s

/-- ENCODE and ENCODE.D (41_encoder.md R71), the checks in the order of 60_exceptions.md R111. -/
def execEncode (d : Bool) (s : State) : Result :=
  withTwoWindows s fun inp out =>
    if !(inp.inRange s.cfg && out.inRange s.cfg) then .refused .windowRange
    else if inp.overlaps out then .refused .encodeOverlap
    else encodeWindows d inp out s

end Sys2Proof.Machine
end

