-- ==== Sys2Proof/Machine/Estimator.lean ====
section
/-! DEFINITION. BUFSIZE, the size estimator (40_size_estimator.md R66 to R70). -/

namespace Sys2Proof.Machine

/-- BUFSIZE and BUFSIZE.D (40_size_estimator.md R66): RESULT <- n + floor(n / 254) + 1 + d. It reads no memory, writes
none, and has no error. -/
def execBufsize (d : Bool) (s : State) : Result :=
  withLength s fun n => complete (bufferSize n d) s.mem s

end Sys2Proof.Machine
end

