-- ==== Sys2Proof/Machine/InPlaceDecoder.lean ====
section
/-! DEFINITION. DECIP, the spec's DECODE_INPLACE (43_inplace_decoder.md R101 to R105). -/

namespace Sys2Proof.Machine

/-- DECIP (43_inplace_decoder.md R101): DECODE's algorithm, from its failure check onward, with both windows the one
buffer window. The overlap check does not apply (20_memory.md R41). -/
def execDecip (s : State) : Result :=
  withOneWindow s fun buf =>
    if !buf.inRange s.cfg then .refused .windowRange
    else decodeWindows buf buf s

end Sys2Proof.Machine
end

