-- ==== Sys2Proof/Machine/Dispatch.lean ====
section
/-! DEFINITION. The meaning of each instruction, one arm per constructor (30_encoding.md R51). -/

namespace Sys2Proof.Machine

def exec (i : Instr) (s : State) : Host.Outcome State Fault Refusal :=
  match i with
  | .bufsize d => Sys2Proof.Machine.execBufsize d s
  | .encode d => Sys2Proof.Machine.execEncode d s
  | .decode => Sys2Proof.Machine.execDecode s
  | .decip => Sys2Proof.Machine.execDecip s

end Sys2Proof.Machine
end

