-- ==== Sys2Proof/Machine/HostPort.lean ====
section
/-! DEFINITION. What each host action does to the block (70_reset_and_hazards.md R125), issuing a command
(10_state.md R16), reset between commands (70_reset_and_hazards.md R121), the assembler's expansion
(30_encoding.md R56), and presenting one command word to a machine. -/

namespace Sys2Proof.Machine

/-- CMD holds the word written (10_state.md R16). -/
def latchCmd (v : CmdWord) (s : State) : State := { s with cmd := .value v }

/-- The command a word names, performed; a reserved word is REFUSE_RESERVED_CMD (30_encoding.md R54). -/
def runWord (v : CmdWord) (s : State) : Result :=
  match decode v with
  | .reserved _ => .refused .reservedCmd
  | .command i => exec i s

/-- A host write of `v` to CMD (10_state.md R16): the register takes the value, then the command is performed. A fault
or refusal of the command is recorded (60_exceptions.md R110). DEDUCED (log entry 4): safe. -/
def issueCommand (v : CmdWord) (s : State) : State := settle (latchCmd v s) (runWord v (latchCmd v s))

/-- The block after a reset (70_reset_and_hazards.md R121): every register unwritten, the record empty, MEM not
changed. The parameter and the host are not the block's. -/
def applyReset (s : State) : State :=
  { s with cmd := .unwritten, arg0 := .unwritten, arg1 := .unwritten, arg2 := .unwritten, arg3 := .unwritten,
           result := .unwritten, record := none }

/-- The host gets the value back. -/
def hostReceives (v : Nat) (s : State) : State := { s with hostGot := v :: s.hostGot }

/-- A host read of a register: its value, or FAULT_UNWRITTEN_REG, recorded. The spec states this stop for a host read
too (10_state.md R19, 60_exceptions.md R110, 70_reset_and_hazards.md R125). -/
def hostReadReg (r : RegName) (s : State) : State :=
  match readReg s r with
  | .unwritten => recordStop s (.fault .unwrittenReg)
  | .value v => hostReceives v s

/-- The host action `a`, taken by the host; `s` is the state with the action off the list. An action the spec gives
the host no move for stops the machine (20_memory.md R32, 70_reset_and_hazards.md R125). DESIGN CHOICE (log entry 6):
safe, since the machine stops. -/
def hostAct (s : State) : HostAction → Result
  | .writeArg k v => if v < s.cfg.memSize then .next (writeArg s k v) else .refused .argValueRange
  | .writeCmd v => .next (issueCommand v s)
  | .writeResult _ => .next s
  | .writeMem a b => if a < s.cfg.memSize then .next { s with mem := Memory.write s.mem a b } else .fault .noSuchAddress
  | .readReg r => .next (hostReadReg r s)
  | .readMem a =>
    if a < s.cfg.memSize then .next (hostReceives (Memory.read s.mem a).toNat s) else .fault .noSuchAddress
  | .reset => .next (applyReset s)

/-- The instruction and the operands a statement stands for (30_encoding.md R56). -/
def statementInstr : Statement → Instr
  | .bufsize d _ => .bufsize d
  | .encode d _ _ _ _ => .encode d
  | .decode _ _ _ _ => .decode
  | .decip _ _ => .decip

/-- The operand values a statement writes, in the order of the ARG registers (30_encoding.md R55, R56). -/
def statementOperands : Statement → List (ArgIndex × Nat)
  | .bufsize _ n => [(.arg0, n)]
  | .encode _ i n o cap => [(.arg0, i), (.arg1, n), (.arg2, o), (.arg3, cap)]
  | .decode i l o cap => [(.arg0, i), (.arg1, l), (.arg2, o), (.arg3, cap)]
  | .decip b l => [(.arg0, b), (.arg1, l)]

/-- The host actions a statement expands to: its operands to the ARG registers, then one write of the command word to
CMD (30_encoding.md R56). -/
def statementActions (x : Statement) : List HostAction :=
  (statementOperands x).map (fun p => HostAction.writeArg p.1 p.2) ++ [.writeCmd (encode (statementInstr x))]

/-- The state with the operand values in their registers. -/
def writeOperands (s : State) (ops : List (ArgIndex × Nat)) : State :=
  ops.foldl (fun t p => writeArg t p.1 p.2) s

/-- An operand register that holds no value takes the operand 0; one that holds a value keeps it (log entry 5). -/
def fillOperand (s : State) (k : ArgIndex) : State :=
  match readArg s k with
  | .unwritten => writeArg s k 0
  | .value _ => s

/-- The operand registers of the command a word names, filled. -/
def fillOperands (v : CmdWord) (s : State) : State :=
  match decode v with
  | .reserved _ => s
  | .command i => (operandRegs i).foldl fillOperand s

/-- A machine whose next step performs the command word `v`: the word is the host's next action, the command's
operands are there, and no earlier refusal or fault stands in the way (log entry 5). -/
def presentWord (v : CmdWord) (s : State) : State :=
  { fillOperands v s with hostActions := .writeCmd v :: s.hostActions, record := none }

end Sys2Proof.Machine
end

