-- ==== Sys2Proof/Machine/Step.lean ====
section
/-! DEFINITION. One step of the machine, and presenting an instruction to it. -/

namespace Sys2Proof.Machine

/-- One step. A recorded refusal or fault stands for good, and the machine answers it (00_scope.md R10,
60_exceptions.md R110; DEDUCED, log entry 4: safe). Otherwise the host takes its next action
(70_reset_and_hazards.md R125), a command being one atomic step (10_state.md R16; DEDUCED, log entry 7: unsafe where a
host breaks its duty of exclusivity). With no action left the block waits, and nothing changes
(70_reset_and_hazards.md R122). -/
def step (s : State) : Host.Outcome State Fault Refusal :=
  match s.record with
  | some (.fault f) => .fault f
  | some (.refused r) => .refused r
  | none =>
    match s.hostActions with
    | [] => .next s
    | a :: rest => hostAct { s with hostActions := rest } a

/-- The state in which the very next step runs the instruction with the bits `w`: the command word is the host's next
write to CMD, with its operands present (log entry 5). -/
def State.withFetchWord (s : State) (nbits w : Nat) : State :=
  presentWord (BitVec.ofNat 8 (w % 2 ^ nbits)) s

end Sys2Proof.Machine
end

