-- ==== Sys2Proof/Machine/WireFormat.lean ====
section
/-! DEFINITION. The wire format as byte lists (30_encoding.md R58 to R62), the block-level description of ENCODE's
output (41_encoder.md R79), and what DECODE makes of a stream on its own, with no memory (42_decoder.md R87 to R91).
No instruction's meaning calls this file: it is what the meanings are compared with. -/

namespace Sys2Proof.Machine

/-! ### Blocks (30_encoding.md R58 to R61) -/

/-- A block: a code byte and its literal bytes (30_encoding.md R58). -/
structure Block where
  code : Byte
  literals : List Byte
  deriving DecidableEq, Repr

/-- A code byte c in 1..255 followed by exactly c - 1 literal bytes (30_encoding.md R58, R59). -/
abbrev Block.wf (b : Block) : Prop := b.code ≠ 0 ∧ b.literals.length = b.code.toNat - 1

/-- The bytes of a block (30_encoding.md R60). -/
def Block.bytes (b : Block) : List Byte := b.code :: b.literals

/-- The bytes of a sequence of blocks, "with no gap and no padding" (30_encoding.md R60). -/
def blocksBytes (bs : List Block) : List Byte := bs.flatMap Block.bytes

/-- The decoded payload of a stream (30_encoding.md R61): the literals of each block, with an implied zero after every
block but an escape block and the final one. -/
def payload : List Block → List Byte
  | [] => []
  | [b] => b.literals
  | b :: rest => b.literals ++ (if b.code.toNat = Config.escape then [] else [Config.special]) ++ payload rest

/-- The delimiter (30_encoding.md R62). -/
def delimiterBytes (d : Bool) : List Byte := if d then [Config.special] else []

/-! ### The encoder's output, block by block (41_encoder.md R79) -/

/-- The segments between the 0x00 bytes of an input (41_encoder.md R79): k zeros give k + 1 segments. -/
def segments : List Byte → List (List Byte)
  | [] => [[]]
  | b :: rest =>
    if b = Config.special then [] :: segments rest
    else
      match segments rest with
      | [] => [[b]]
      | seg :: more => (b :: seg) :: more

/-- The escape blocks of a segment (41_encoder.md R79): one for each full run of 254 bytes. -/
def escapeBlocks (seg : List Byte) : List Byte :=
  (List.range (seg.length / Config.maxRun)).flatMap fun t =>
    BitVec.ofNat 8 Config.escape :: (seg.drop (Config.maxRun * t)).take Config.maxRun

/-- The last block of a segment, omitted only when it is the last segment's, and that is non-empty and ends exactly on
a 254-byte boundary (41_encoder.md R79). -/
def remainderBlock (isLast : Bool) (seg : List Byte) : List Byte :=
  if isLast ∧ 0 < seg.length ∧ seg.length % Config.maxRun = 0 then []
  else BitVec.ofNat 8 (seg.length % Config.maxRun + 1) :: seg.drop (Config.maxRun * (seg.length / Config.maxRun))

/-- The encoding of the segments, in order (41_encoder.md R79). -/
def encodeSegments : List (List Byte) → List Byte
  | [] => []
  | [seg] => escapeBlocks seg ++ remainderBlock true seg
  | seg :: rest => escapeBlocks seg ++ remainderBlock false seg ++ encodeSegments rest

/-- The encoding of an input (41_encoder.md R79), with the delimiter when d = 1. -/
def encodedBytes (input : List Byte) (d : Bool) : List Byte :=
  encodeSegments (segments input) ++ delimiterBytes d

/-! ### The decoder on a stream alone (42_decoder.md R87 to R91) -/

/-- The code byte `c` clamped to the bytes left, itself and `rest` (42_decoder.md R87). -/
def clampCode (c : Byte) (rest : List Byte) : Nat := min c.toNat (rest.length + 1)

/-- What follows a block whose literals are `lits` and whose code after clamping is `code`, `after` being the stream
from there on and `more` the payload of the blocks in it (42_decoder.md R90, R91). -/
def joinPayload (code : Nat) (lits after more : List Byte) : List Byte :=
  match after with
  | [] => lits
  | x :: _ =>
    if x = Config.special then lits
    else if code = Config.escape then lits ++ more
    else lits ++ Config.special :: more

/-- The payload of the first `fuel` blocks of a stream. -/
def decodeBlocks : Nat → List Byte → List Byte
  | 0, _ => []
  | _ + 1, [] => []
  | fuel + 1, c :: rest =>
    joinPayload (clampCode c rest) (rest.take (clampCode c rest - 1)) (rest.drop (clampCode c rest - 1))
      (decodeBlocks fuel (rest.drop (clampCode c rest - 1)))

/-- What DECODE makes of the stream `stream`, well formed or not (42_decoder.md R96). -/
def decodedBytes (stream : List Byte) : List Byte := decodeBlocks stream.length stream

end Sys2Proof.Machine
end

