-- ==== Sys2Proof/Safety.lean ====
section
/-! DEFINITION. The terms claims use: the state's invariant, a run with no refusal and no fault recorded, and the
outcomes of a command taken apart. -/

namespace Sys2Proof.Machine

/-- A register that holds a value holds one below `bound`. -/
def Reg.fits (bound : Nat) : Reg Nat → Bool
  | .unwritten => true
  | .value v => decide (v < bound)

/-- The invariant of the state: ARG0 to ARG3 hold ADDR_BITS-bit values and RESULT an (ADDR_BITS + 1)-bit value
(10_state.md R14), MEM is in canonical form, and every address it lists exists (20_memory.md R32). -/
abbrev State.wf (s : State) : Prop :=
  (Reg.fits s.cfg.memSize s.arg0 = true ∧ Reg.fits s.cfg.memSize s.arg1 = true ∧
    Reg.fits s.cfg.memSize s.arg2 = true ∧ Reg.fits s.cfg.memSize s.arg3 = true) ∧
  Reg.fits (2 * s.cfg.memSize) s.result = true ∧ Memory.wf s.mem ∧ ∀ c ∈ s.mem, c.1 < s.cfg.memSize

/-- "No refusal and no fault recorded", the premise of a claim about a run (60_exceptions.md R110). -/
abbrev State.clean (s : State) : Prop := s.record = none

/-- A run of `k` steps from `s` that ends in `t` with no refusal and no fault recorded. -/
def CleanRun (k : Nat) (s t : State) : Prop := Host.Core.run Sys2Proof.core k s = .next t ∧ t.clean

/-- The next state, if the outcome is ok. -/
def nextState : Host.Outcome State Fault Refusal → Option State
  | .next t => some t
  | .fault _ => none
  | .refused _ => none

/-- The reason the outcome is not ok, if it is not. -/
def stopReason : Host.Outcome State Fault Refusal → Option Stop
  | .next _ => none
  | .fault f => some (.fault f)
  | .refused r => some (.refused r)

/-! ### Operands and windows, as hypotheses of claims -/

/-- ARG0 to ARG3 hold the operands of ENCODE or DECODE: the two windows (30_encoding.md R55). -/
abbrev HoldsTwoWindows (s : State) (inp out : Window) : Prop :=
  s.arg0 = .value inp.base ∧ s.arg1 = .value inp.len ∧ s.arg2 = .value out.base ∧ s.arg3 = .value out.len

/-- ARG0 and ARG1 hold the operands of DECIP: the one window (30_encoding.md R55). -/
abbrev HoldsOneWindow (s : State) (buf : Window) : Prop :=
  s.arg0 = .value buf.base ∧ s.arg1 = .value buf.len

/-- The window is well formed: base + len <= 2^ADDR_BITS (20_memory.md R34). -/
abbrev Window.Fits (w : Window) (c : Config) : Prop := w.base + w.len ≤ c.memSize

/-- The windows share at least one address (20_memory.md R40). -/
abbrev Window.Shares (x y : Window) : Prop :=
  0 < x.len ∧ 0 < y.len ∧ x.base < y.base + y.len ∧ y.base < x.base + x.len

/-- The operands of an ENCODE that is neither refused nor faulted (60_exceptions.md R110). -/
abbrev EncodeAdmitted (s : State) (inp out : Window) : Prop :=
  HoldsTwoWindows s inp out ∧ inp.Fits s.cfg ∧ out.Fits s.cfg ∧ ¬ inp.Shares out

/-- The operands of a DECODE that is neither refused nor faulted (60_exceptions.md R110). -/
abbrev DecodeAdmitted (s : State) (inp out : Window) : Prop :=
  HoldsTwoWindows s inp out ∧ inp.Fits s.cfg ∧ out.Fits s.cfg ∧ ¬ (inp.Shares out ∧ inp.base < out.base)

/-- The operands of a DECIP that is neither refused nor faulted (60_exceptions.md R110). -/
abbrev DecipAdmitted (s : State) (buf : Window) : Prop :=
  HoldsOneWindow s buf ∧ buf.Fits s.cfg

/-- A DECODE with these lengths does not fail (42_decoder.md R86). -/
abbrev DecodeSized (len cap : Nat) : Prop := 2 ≤ len ∧ len - 1 ≤ cap

/-! ### Frames -/

/-- Every byte outside the `count` bytes from `base` on reads as before. -/
abbrev SameOutside (m m' : Memory) (base count : Nat) : Prop :=
  ∀ a, a < base ∨ base + count ≤ a → Memory.read m' a = Memory.read m a

/-- `t` differs from `s` at most in RESULT and in MEM: ARG0 to ARG3, CMD, the record, the parameter and the host's
lists are the same. -/
abbrev OnlyResultAndMem (s t : State) : Prop := t = { s with result := t.result, mem := t.mem }

/-- Where a command's output window begins: ARG2 for ENCODE and DECODE, ARG0 for DECIP; BUFSIZE has none
(20_memory.md R33). -/
def outputBase (s : State) : Instr → Reg Nat
  | .bufsize _ => .unwritten
  | .encode _ => s.arg2
  | .decode => s.arg2
  | .decip => s.arg0

/-- The two states hold the same bytes in the window (ARG0, ARG1) of the first. -/
abbrev SameInput (s u : State) : Prop :=
  ∀ base len, s.arg0 = .value base → s.arg1 = .value len →
    ∀ k, k < len → Memory.read u.mem (base + k) = Memory.read s.mem (base + k)

end Sys2Proof.Machine
end

