-- ==== Sys2Proof/Certificates/Slice0/Obligations.lean ====
section
/-! DEFINITION. The statements for the provers, in the order of OBLIGATIONS.json. Each docstring names the rule of
spec/ the statement comes from. A statement over a state holds for every ADDR_BITS, since the state carries it. -/

open Sys2Proof Sys2Proof.Machine

/-! ### Command words -/

/-- Decoding the word of an instruction gives it back (30_encoding.md R50, R51, R54). -/
def Obligations.DecodeOfEncodeIsTheInstruction : Prop :=
  ∀ i : Instr, i.wf = true → decode (encode i) = .command i

/-- A word that names a command is that command's own word (30_encoding.md R54): no two words name one command. -/
def Obligations.EncodeOfDecodeIsTheWord : Prop :=
  ∀ (v : CmdWord) (i : Instr), decode v = .command i → encode i = v

/-- Exactly six values name commands, and the other 250 are reserved (30_encoding.md R54). -/
def Obligations.ExactlySixWordsNameCommands : Prop :=
  decode 0b00000000#8 = .command (.bufsize false) ∧ decode 0b00000100#8 = .command (.bufsize true) ∧
  decode 0b00000001#8 = .command (.encode false) ∧ decode 0b00000101#8 = .command (.encode true) ∧
  decode 0b00000010#8 = .command .decode ∧ decode 0b00000011#8 = .command .decip ∧
  (∀ v : CmdWord, v.toNat = 6 ∨ v.toNat = 7 ∨ 8 ≤ v.toNat → ∃ why, decode v = .reserved why)

/-- RSV not 0 is a reserved encoding (30_encoding.md R53). -/
def Obligations.NonzeroReservedFieldIsReserved : Prop :=
  ∀ v : CmdWord, v.extractLsb' 3 5 ≠ 0 → decode v = .reserved .reservedField

/-- What OP and D select (30_encoding.md R51, R52), for words with RSV = 0. -/
def Obligations.OpAndDelimiterFieldsSelectTheCommand : Prop :=
  ∀ v : CmdWord, v.extractLsb' 3 5 = 0 →
    (v.extractLsb' 0 2 = 0 → decode v = .command (.bufsize (v.getLsbD 2))) ∧
    (v.extractLsb' 0 2 = 1 → decode v = .command (.encode (v.getLsbD 2))) ∧
    (v.extractLsb' 0 2 = 2 → v.getLsbD 2 = false → decode v = .command .decode) ∧
    (v.extractLsb' 0 2 = 3 → v.getLsbD 2 = false → decode v = .command .decip) ∧
    (v.extractLsb' 0 2 = 2 ∨ v.extractLsb' 0 2 = 3 → v.getLsbD 2 = true → decode v = .reserved .delimiterOnDecode)

/-! ### Steps of the machine -/

/-- A step whose next host action writes a command word runs the decoded instruction in the state with the action off
the list and CMD holding the word (10_state.md R16); a fault or refusal of it is recorded (60_exceptions.md R110). -/
def Obligations.StepRunsTheDecodedCommand : Prop :=
  ∀ (s u : State) (v : CmdWord) (i : Instr) (rest : List HostAction),
    s.record = none → s.hostActions = .writeCmd v :: rest → decode v = .command i →
    u = { s with hostActions := rest, cmd := .value v } →
    (∀ t, exec i u = .next t → step s = .next t) ∧
    (∀ f, exec i u = .fault f → step s = .next { u with record := some (.fault f) }) ∧
    (∀ r, exec i u = .refused r → step s = .next { u with record := some (.refused r) })

/-- A reserved word is refused with REFUSE_RESERVED_CMD: CMD takes the value, the refusal is recorded, and no other
register and no byte of MEM changes, whatever the ARG registers hold (30_encoding.md R54, 60_exceptions.md R111). -/
def Obligations.ReservedWordIsRefusedAndRecorded : Prop :=
  ∀ (s : State) (v : CmdWord) (why : Reserved) (rest : List HostAction),
    s.record = none → s.hostActions = .writeCmd v :: rest → decode v = .reserved why →
    step s = .next { s with hostActions := rest, cmd := .value v, record := some (.refused .reservedCmd) }

/-- A recorded fault or refusal stands for good: the machine answers it and takes no further step
(00_scope.md R10, 60_exceptions.md R110). -/
def Obligations.RecordedStopIsPermanent : Prop :=
  ∀ s : State,
    (∀ f, s.record = some (.fault f) → step s = .fault f) ∧
    (∀ r, s.record = some (.refused r) → step s = .refused r)

/-- With no host action left the block waits and nothing changes (70_reset_and_hazards.md R122, R125). -/
def Obligations.IdleBlockWaits : Prop :=
  ∀ s : State, s.record = none → s.hostActions = [] → step s = .next s

/-- A host write of a number below 2^ADDR_BITS to an ARG register stores it there and changes nothing else
(70_reset_and_hazards.md R125). -/
def Obligations.HostWriteStoresTheArg : Prop :=
  ∀ (s : State) (k : ArgIndex) (v : Nat) (rest : List HostAction),
    s.record = none → s.hostActions = .writeArg k v :: rest → v < s.cfg.memSize →
    ∃ t, step s = .next t ∧ readArg t k = .value v ∧ (∀ j, j ≠ k → readArg t j = readArg s j) ∧
      t.cmd = s.cmd ∧ t.result = s.result ∧ t.mem = s.mem ∧ t.record = none ∧ t.cfg = s.cfg ∧
      t.hostActions = rest ∧ t.hostGot = s.hostGot

/-- A host write of a byte of MEM sets that byte, leaves every other byte, and changes nothing else
(70_reset_and_hazards.md R125, 20_memory.md R32). -/
def Obligations.HostWriteSetsTheByte : Prop :=
  ∀ (s : State) (a : Nat) (b : Byte) (rest : List HostAction),
    s.record = none → s.hostActions = .writeMem a b :: rest → a < s.cfg.memSize →
    ∃ t, step s = .next t ∧ Memory.read t.mem a = b ∧ (∀ x, x ≠ a → Memory.read t.mem x = Memory.read s.mem x) ∧
      t = { s with hostActions := rest, mem := t.mem }

/-- RESULT is read only to the host: a host write of it has no effect (10_state.md R14). -/
def Obligations.HostWriteOfResultHasNoEffect : Prop :=
  ∀ (s : State) (v : Nat) (rest : List HostAction),
    s.record = none → s.hostActions = .writeResult v :: rest → step s = .next { s with hostActions := rest }

/-- A host read of a register that holds a value returns it; of one that has held no value since reset it is
FAULT_UNWRITTEN_REG, recorded (10_state.md R19, 70_reset_and_hazards.md R125). Neither changes a register or MEM. -/
def Obligations.HostReadReturnsTheRegisterOrFaults : Prop :=
  ∀ (s : State) (r : RegName) (rest : List HostAction),
    s.record = none → s.hostActions = .readReg r :: rest →
    (∀ v, readReg s r = .value v → step s = .next { s with hostActions := rest, hostGot := v :: s.hostGot }) ∧
    (readReg s r = .unwritten → step s = .next { s with hostActions := rest, record := some (.fault .unwrittenReg) })

/-- A host read of MEM returns the byte and changes nothing (20_memory.md R38, 70_reset_and_hazards.md R125). -/
def Obligations.HostReadReturnsTheByte : Prop :=
  ∀ (s : State) (a : Nat) (rest : List HostAction),
    s.record = none → s.hostActions = .readMem a :: rest → a < s.cfg.memSize →
    step s = .next { s with hostActions := rest, hostGot := (Memory.read s.mem a).toNat :: s.hostGot }

/-- The model's choice (log entry 6): a host access outside MEM, and an ARG value of more than ADDR_BITS bits, stop the
machine (20_memory.md R32 and 70_reset_and_hazards.md R125 give the host no such move). -/
def Obligations.HostMoveOutsideTheInterfaceStops : Prop :=
  ∀ (s : State) (rest : List HostAction), s.record = none →
    (∀ a b, s.hostActions = .writeMem a b :: rest → s.cfg.memSize ≤ a → step s = .fault .noSuchAddress) ∧
    (∀ a, s.hostActions = .readMem a :: rest → s.cfg.memSize ≤ a → step s = .fault .noSuchAddress) ∧
    (∀ k v, s.hostActions = .writeArg k v :: rest → s.cfg.memSize ≤ v → step s = .refused .argValueRange)

/-- Reset leaves every register unwritten and the record empty, and does not change MEM
(70_reset_and_hazards.md R121). -/
def Obligations.ResetClearsRegistersAndKeepsMemory : Prop :=
  ∀ (s : State) (rest : List HostAction), s.record = none → s.hostActions = .reset :: rest →
    ∃ t, step s = .next t ∧ (∀ r, readReg t r = .unwritten) ∧ t.record = none ∧ t.mem = s.mem ∧ t.cfg = s.cfg ∧
      t.hostActions = rest ∧ t.hostGot = s.hostGot

/-- After reset every register is unwritten and the record is empty, for every ADDR_BITS and every memory
(70_reset_and_hazards.md R121); State.reset is such a state. -/
def Obligations.ResetStateHoldsNoRegisterValue : Prop :=
  (∀ (c : Config) (m : Memory) (r : RegName),
    readReg (State.resetWith c m) r = .unwritten ∧ (State.resetWith c m).record = none ∧
      (State.resetWith c m).mem = m ∧ (State.resetWith c m).cfg = c) ∧
  State.reset = State.resetWith State.reset.cfg State.reset.mem

/-- The assembler's statements, one clause each (30_encoding.md R56, with the registers of R55 and the words of R54).
From a state with nothing recorded whose host actions begin with the statement's, as many steps as the statement has
operands plus one put the operands in their ARG registers and the command word in CMD, take the actions off the list,
and perform the command there: BUFSIZE gives its size; what exec answers for the others is reached, or its refusal
recorded. (No clause for a fault: the operands are written, so exec has none.) -/
def Obligations.StatementWritesOperandsThenIssues : Prop :=
  ∀ (s : State) (rest : List HostAction), s.record = none →
    (∀ (d : Bool) (n : Nat), n < s.cfg.memSize → s.hostActions = statementActions (.bufsize d n) ++ rest →
      Host.Core.run Sys2Proof.core 2 s =
        .next { s with hostActions := rest, arg0 := .value n, cmd := .value (if d then 0x04#8 else 0x00#8),
                       result := .value (n + n / 254 + 1 + if d then 1 else 0) }) ∧
    (∀ (d : Bool) (i n o cap : Nat) (u : State),
      i < s.cfg.memSize → n < s.cfg.memSize → o < s.cfg.memSize → cap < s.cfg.memSize →
      s.hostActions = statementActions (.encode d i n o cap) ++ rest →
      u = { s with hostActions := rest, arg0 := .value i, arg1 := .value n, arg2 := .value o, arg3 := .value cap,
                   cmd := .value (if d then 0x05#8 else 0x01#8) } →
      (∀ t, exec (.encode d) u = .next t → Host.Core.run Sys2Proof.core 5 s = .next t) ∧
      (∀ r, exec (.encode d) u = .refused r →
        Host.Core.run Sys2Proof.core 5 s = .next { u with record := some (.refused r) })) ∧
    (∀ (i l o c : Nat) (u : State),
      i < s.cfg.memSize → l < s.cfg.memSize → o < s.cfg.memSize → c < s.cfg.memSize →
      s.hostActions = statementActions (.decode i l o c) ++ rest →
      u = { s with hostActions := rest, arg0 := .value i, arg1 := .value l, arg2 := .value o, arg3 := .value c,
                   cmd := .value 0x02#8 } →
      (∀ t, exec .decode u = .next t → Host.Core.run Sys2Proof.core 5 s = .next t) ∧
      (∀ r, exec .decode u = .refused r →
        Host.Core.run Sys2Proof.core 5 s = .next { u with record := some (.refused r) })) ∧
    (∀ (b l : Nat) (u : State), b < s.cfg.memSize → l < s.cfg.memSize →
      s.hostActions = statementActions (.decip b l) ++ rest →
      u = { s with hostActions := rest, arg0 := .value b, arg1 := .value l, cmd := .value 0x03#8 } →
      (∀ t, exec .decip u = .next t → Host.Core.run Sys2Proof.core 3 s = .next t) ∧
      (∀ r, exec .decip u = .refused r →
        Host.Core.run Sys2Proof.core 3 s = .next { u with record := some (.refused r) }))

/-- Every host action the spec gives the host completes in one step, a command of any operands and any bytes
included (70_reset_and_hazards.md R134, 60_exceptions.md R109). -/
def Obligations.EveryHostActionCompletesInOneStep : Prop :=
  ∀ (s : State) (a : HostAction) (rest : List HostAction),
    s.record = none → s.hostActions = a :: rest → a.wf s.cfg = true →
    ∃ t, step s = .next t ∧ t.hostActions = rest ∧ t.cfg = s.cfg

/-! ### Invariants and whole-machine rules -/

/-- Every step keeps the state's invariant: every register within its width (10_state.md R14, 40_size_estimator.md
R67), MEM in canonical form and within its 2^ADDR_BITS addresses (20_memory.md R32). -/
def Obligations.StepKeepsTheStateWellFormed : Prop :=
  ∀ s t : State, s.wf → step s = .next t → t.wf

/-- The invariant holds at reset, for every ADDR_BITS and every memory in canonical form within MEM; State.reset is
one case (70_reset_and_hazards.md R121). -/
def Obligations.ResetStateIsWellFormed : Prop :=
  State.reset.wf ∧
  ∀ (c : Config) (m : Memory), Memory.wf m → (∀ e ∈ m, e.1 < c.memSize) → (State.resetWith c m).wf

/-- Whatever a command's outcome, it writes none of ARG0 to ARG3 and CMD, so the same command may be issued again
(10_state.md R17). -/
def Obligations.CommandsKeepArgsAndCmd : Prop :=
  ∀ (i : Instr) (s : State),
    (settle s (exec i s)).arg0 = s.arg0 ∧ (settle s (exec i s)).arg1 = s.arg1 ∧
    (settle s (exec i s)).arg2 = s.arg2 ∧ (settle s (exec i s)).arg3 = s.arg3 ∧
    (settle s (exec i s)).cmd = s.cmd

/-- A command with outcome ok writes RESULT; one that faults or is refused leaves RESULT and MEM and is recorded; and
no command touches the parameter or the host's lists (10_state.md R18, 00_scope.md R10, 20_memory.md R42). -/
def Obligations.OkWritesResultAndStopWritesNothing : Prop :=
  ∀ (i : Instr) (s : State),
    (∀ t, exec i s = .next t → OnlyResultAndMem s t ∧ ∃ c, t.result = .value c) ∧
    (∀ x, stopReason (exec i s) = some x → settle s (exec i s) = { s with record := some x })

/-- RESULT changes only by a command or a reset: the host cannot write it (10_state.md R14, R18). -/
def Obligations.OnlyCommandsAndResetChangeResult : Prop :=
  ∀ s t : State, step s = .next t → t.result ≠ s.result →
    ∃ rest, s.hostActions = .reset :: rest ∨
      ∃ v i, s.hostActions = .writeCmd v :: rest ∧ decode v = .command i ∧
        exec i { s with hostActions := rest, cmd := .value v } = .next t

/-- A byte of MEM changes only by the host's write of that byte or by an ENCODE, DECODE or DECIP that ends ok, and then
only below RESULT in its output window (20_memory.md R42, R32). -/
def Obligations.OnlyHostWritesAndCommandsChangeMemory : Prop :=
  ∀ (s t : State) (a : Nat), step s = .next t → Memory.read t.mem a ≠ Memory.read s.mem a →
    ∃ rest, (∃ b, s.hostActions = .writeMem a b :: rest) ∨
      ∃ v i base count, s.hostActions = .writeCmd v :: rest ∧ decode v = .command i ∧
        outputBase s i = .value base ∧ t.result = .value count ∧ base ≤ a ∧ a < base + count

/-- A command that reads an ARG register that has held no value since reset is FAULT_UNWRITTEN_REG, before any check of
windows; a command reads only the registers of R55 (10_state.md R19, 30_encoding.md R55, 60_exceptions.md R111). -/
def Obligations.UnwrittenOperandFaultsFirst : Prop :=
  ∀ (i : Instr) (s : State),
    exec i s = .fault .unwrittenReg ↔ ∃ k ∈ operandRegs i, readArg s k = .unwritten

/-- A command's RESULT and the bytes it writes are a function of the ARG values and of the bytes of its input window
at its issue: nothing else of the state is seen (20_memory.md R44, 42_decoder.md R100, 40_size_estimator.md R70). -/
def Obligations.CommandsSeeOnlyOperandsAndInput : Prop :=
  ∀ (i : Instr) (s u t : State),
    s.cfg = u.cfg → (∀ k, readArg s k = readArg u k) → SameInput s u → exec i s = .next t →
    ∃ t', exec i u = .next t' ∧ t'.result = t.result ∧
      ∀ base count k, outputBase s i = .value base → t.result = .value count → k < count →
        Memory.read t'.mem (base + k) = Memory.read t.mem (base + k)

/-! ### BUFSIZE -/

/-- BUFSIZE completes whenever ARG0 holds a value: RESULT is n + floor(n/254) + 1 + d and nothing else changes, MEM
included (40_size_estimator.md R66, R70). -/
def Obligations.BufsizeReturnsTheSizeFormula : Prop :=
  ∀ (s : State) (n : Nat) (d : Bool), s.arg0 = .value n →
    exec (.bufsize d) s = .next { s with result := .value (n + n / 254 + 1 + if d then 1 else 0) }

/-- Every BUFSIZE result fits in RESULT's ADDR_BITS + 1 bits (40_size_estimator.md R67): RESULT holds the exact size,
the number that ENCODE compares its capacity with. -/
def Obligations.BufsizeResultFitsResult : Prop :=
  ∀ (s : State) (n : Nat) (d : Bool), s.arg0 = .value n → n ≤ 2 ^ s.cfg.addrBits - 1 →
    bufferSize n d ≤ 2 ^ (s.cfg.addrBits + 1) - 1 ∧
    (∃ t, exec (.bufsize d) s = .next t ∧ t.result = .value (bufferSize n d)) ∧
    ∀ cap, encodeFails n cap d = true ↔ cap < bufferSize n d

/-! ### ENCODE -/

/-- ENCODE completes whenever its ARG registers hold two windows in range that share no address, whatever the bytes
(41_encoder.md R71, 60_exceptions.md R111). -/
def Obligations.EncodeCompletesWhenAdmitted : Prop :=
  ∀ (s : State) (inp out : Window) (d : Bool), EncodeAdmitted s inp out →
    ∃ t count, exec (.encode d) s = .next t ∧ t.result = .value count ∧ OnlyResultAndMem s t

/-- ENCODE refuses a window out of range (20_memory.md R34) before two windows that share an address
(20_memory.md R40), in the order of 60_exceptions.md R111. -/
def Obligations.EncodeRefusesRangeThenOverlap : Prop :=
  ∀ (s : State) (inp out : Window) (d : Bool), HoldsTwoWindows s inp out →
    (¬ (inp.Fits s.cfg ∧ out.Fits s.cfg) → exec (.encode d) s = .refused .windowRange) ∧
    (inp.Fits s.cfg → out.Fits s.cfg → inp.Shares out → exec (.encode d) s = .refused .encodeOverlap)

/-- ENCODE with a capacity below BUFSIZE(n, d) returns 0 and changes nothing else (41_encoder.md R72,
60_exceptions.md R106, R107). -/
def Obligations.EncodeShortCapacityReturnsZero : Prop :=
  ∀ (s : State) (inp out : Window) (d : Bool), EncodeAdmitted s inp out →
    out.len < inp.len + inp.len / 254 + 1 + (if d then 1 else 0) →
    exec (.encode d) s = .next { s with result := .value 0 }

/-- RESULT = 0 from ENCODE means exactly that cap < BUFSIZE(n, d) (41_encoder.md R84). -/
def Obligations.EncodeZeroMeansShortCapacity : Prop :=
  ∀ (s t : State) (inp out : Window) (d : Bool) (count : Nat), EncodeAdmitted s inp out →
    exec (.encode d) s = .next t → t.result = .value count →
    (count = 0 ↔ out.len < bufferSize inp.len d) ∧ (bufferSize inp.len d ≤ out.len → 1 ≤ count)

/-- A successful ENCODE returns at least n + 1 + d (41_encoder.md R82) and at most BUFSIZE(n, d)
(40_size_estimator.md R68). -/
def Obligations.EncodeResultIsWithinItsBounds : Prop :=
  ∀ (s t : State) (inp out : Window) (d : Bool), EncodeAdmitted s inp out → bufferSize inp.len d ≤ out.len →
    exec (.encode d) s = .next t →
    ∃ count, t.result = .value count ∧ inp.len + 1 + (if d then 1 else 0) ≤ count ∧ count ≤ bufferSize inp.len d

/-- The longest output over all inputs of length n is 1 + d for n = 0 and n + 1 + floor((n - 1)/254) + d otherwise;
an input with no 0x00 reaches it. BUFSIZE equals it, and equals the length of such an output, exactly when n = 0 or n mod 254 is not 0, and
is 1 more when n is a positive multiple of 254 (40_size_estimator.md R69). -/
def Obligations.EncodeLengthIsLongestWithoutZeros : Prop :=
  ∀ (s t : State) (inp out : Window) (d : Bool) (count : Nat), EncodeAdmitted s inp out →
    bufferSize inp.len d ≤ out.len → exec (.encode d) s = .next t → t.result = .value count →
    (inp.len = 0 → count = 1 + if d then 1 else 0) ∧
    (1 ≤ inp.len → count ≤ inp.len + 1 + (inp.len - 1) / 254 + if d then 1 else 0) ∧
    ((∀ b ∈ inp.bytes s.mem, b ≠ 0x00#8) →
      (1 ≤ inp.len → count = inp.len + 1 + (inp.len - 1) / 254 + if d then 1 else 0) ∧
      (count = bufferSize inp.len d ↔ inp.len = 0 ∨ inp.len % 254 ≠ 0)) ∧
    (inp.len % 254 ≠ 0 → bufferSize inp.len d = inp.len + 1 + (inp.len - 1) / 254 + if d then 1 else 0) ∧
    (1 ≤ inp.len → inp.len % 254 = 0 →
      bufferSize inp.len d = (inp.len + 1 + (inp.len - 1) / 254 + if d then 1 else 0) + 1)

/-- ENCODE writes the block-level encoding of its input, for every input (41_encoder.md R79): the command completes,
RESULT is the encoding's length, the output window begins with the encoding, and every other byte of MEM and every
other part of the state is as before. -/
def Obligations.EncodeWritesTheBlockLevelEncoding : Prop :=
  ∀ (s : State) (inp out : Window) (d : Bool), EncodeAdmitted s inp out → bufferSize inp.len d ≤ out.len →
    ∃ t, exec (.encode d) s = .next t ∧ OnlyResultAndMem s t ∧
      t.result = .value (encodedBytes (inp.bytes s.mem) d).length ∧
      Window.bytes ⟨out.base, (encodedBytes (inp.bytes s.mem) d).length⟩ t.mem = encodedBytes (inp.bytes s.mem) d ∧
      SameOutside s.mem t.mem out.base (encodedBytes (inp.bytes s.mem) d).length

/-- The frame of ENCODE: only RESULT and, in MEM, the RESULT bytes from OUT_BASE on may change; the input window is
never written (41_encoder.md R77, 20_memory.md R42). With RESULT = 0 all of MEM is as before. -/
def Obligations.EncodeFrame : Prop :=
  ∀ (s t : State) (inp out : Window) (d : Bool), EncodeAdmitted s inp out → exec (.encode d) s = .next t →
    OnlyResultAndMem s t ∧ inp.bytes t.mem = inp.bytes s.mem ∧
    ∃ count, t.result = .value count ∧ count ≤ out.len ∧ SameOutside s.mem t.mem out.base count

/-- A successful scan of ENCODE writes every output offset 0 to RESULT - 1 exactly once and writes no other address
(41_encoder.md R77). -/
def Obligations.EncodeWritesEachOffsetOnce : Prop :=
  ∀ (inp out : Window) (d : Bool) (m : Memory),
    (writeAddrs (encodeRun inp out d m).port.accesses).Perm
      ((List.range (encodeRun inp out d m).o).map (fun k => out.base + k))

/-- A scan of ENCODE reads each input byte once, in order, and reads nothing else (41_encoder.md R71,
20_memory.md R35, R43). -/
def Obligations.EncodeReadsInputOnceInOrder : Prop :=
  ∀ (inp out : Window) (d : Bool) (m : Memory),
    readAddrs (encodeRun inp out d m).port.accesses.reverse = (List.range inp.len).map (fun k => inp.base + k)

/-- ENCODE's variables stay in their ranges (10_state.md R26, 41_encoder.md R78): before each input byte and after the
last one, the code counter is in 1..255, and is 255 only after the last byte. -/
def Obligations.EncodeVariablesStayInRange : Prop :=
  ∀ (inp out : Window) (m : Memory) (k : Nat), k ≤ inp.len →
    (encodeScan inp out k (encodeStart m)).i = k ∧
    (encodeScan inp out k (encodeStart m)).slot < (encodeScan inp out k (encodeStart m)).o ∧
    (encodeScan inp out k (encodeStart m)).o ≤ (encodeRun inp out false m).o ∧
    1 ≤ (encodeScan inp out k (encodeStart m)).code ∧ (encodeScan inp out k (encodeStart m)).code ≤ 255 ∧
    (k < inp.len → (encodeScan inp out k (encodeStart m)).code ≤ 254)

/-- The output of a successful ENCODE contains no byte 0x00, except that when d = 1 its last byte is 0x00
(41_encoder.md R81). -/
def Obligations.EncodeOutputHasNoZeroButTheDelimiter : Prop :=
  ∀ (s t : State) (inp out : Window) (d : Bool), EncodeAdmitted s inp out → bufferSize inp.len d ≤ out.len →
    exec (.encode d) s = .next t →
    ∃ count, t.result = .value count ∧
      ∀ k, k < count → (Memory.read t.mem (out.base + k) = 0x00#8 ↔ d = true ∧ k + 1 = count)

/-! ### DECODE -/

/-- DECODE completes whenever its ARG registers hold two windows in range with no overlap above the input, whatever
the bytes (42_decoder.md R85, R96, 60_exceptions.md R111). -/
def Obligations.DecodeCompletesWhenAdmitted : Prop :=
  ∀ (s : State) (inp out : Window), DecodeAdmitted s inp out →
    ∃ t count, exec .decode s = .next t ∧ t.result = .value count ∧ OnlyResultAndMem s t

/-- DECODE refuses a window out of range (20_memory.md R34) before an overlap with OUT_BASE > IN_BASE
(20_memory.md R41), in the order of 60_exceptions.md R111. -/
def Obligations.DecodeRefusesRangeThenOverlapAbove : Prop :=
  ∀ (s : State) (inp out : Window), HoldsTwoWindows s inp out →
    (¬ (inp.Fits s.cfg ∧ out.Fits s.cfg) → exec .decode s = .refused .windowRange) ∧
    (inp.Fits s.cfg → out.Fits s.cfg → inp.Shares out → inp.base < out.base →
      exec .decode s = .refused .decodeOverlap)

/-- DECODE fails, returning 0 and changing nothing else, when L < 2, C = 0 or C < L - 1, and otherwise ends with the
write cursor and the memory of its loop (42_decoder.md R86, 60_exceptions.md R106, R108). -/
def Obligations.DecodeFailsExactlyOnShortWindows : Prop :=
  ∀ (s : State) (inp out : Window), DecodeAdmitted s inp out →
    (inp.len < 2 ∨ out.len = 0 ∨ out.len < inp.len - 1 → exec .decode s = .next { s with result := .value 0 }) ∧
    (¬ (inp.len < 2 ∨ out.len = 0 ∨ out.len < inp.len - 1) →
      exec .decode s = .next { s with result := .value (decodeRun inp out s.mem).w,
                                      mem := (decodeRun inp out s.mem).port.mem })

/-- The frame of DECODE: only RESULT and, in MEM, the RESULT bytes from OUT_BASE on may change, and RESULT is at most
L - 1 and at most C (42_decoder.md R92, 20_memory.md R42). -/
def Obligations.DecodeFrame : Prop :=
  ∀ (s t : State) (inp out : Window), DecodeAdmitted s inp out → exec .decode s = .next t →
    OnlyResultAndMem s t ∧
    ∃ count, t.result = .value count ∧ count ≤ inp.len - 1 ∧ count ≤ out.len ∧
      SameOutside s.mem t.mem out.base count

/-- DECODE's loop writes every output offset 0 to w - 1 exactly once, in increasing order, and no other address, and
w is at most L - 1 (42_decoder.md R92). -/
def Obligations.DecodeWritesOffsetsInOrder : Prop :=
  ∀ (inp out : Window) (m : Memory),
    writeAddrs (decodeRun inp out m).port.accesses.reverse =
      (List.range (decodeRun inp out m).w).map (fun k => out.base + k) ∧
    (decodeRun inp out m).w ≤ inp.len - 1

/-- At every write of DECODE's loop, at output offset x, x is less than the input offset of the byte most recently
read, and every later read is at an input offset greater than x (42_decoder.md R93). -/
def Obligations.DecodeWritesStayBehindReads : Prop :=
  ∀ (inp out : Window) (m : Memory) (before after : List Access) (a : Nat) (b : Byte),
    (decodeRun inp out m).port.accesses.reverse = before ++ .write a b :: after →
    ∃ x, a = out.base + x ∧
      (∃ y, (readAddrs before).getLast? = some (inp.base + y) ∧ x < y) ∧
      (∀ c ∈ readAddrs after, ∃ y, c = inp.base + y ∧ x < y)

/-- DECODE's loop reads only bytes of its input window, and none past the position where the loop ends
(42_decoder.md R100, R87, R90). -/
def Obligations.DecodeReadsStayInsideInput : Prop :=
  ∀ (inp out : Window) (m : Memory), ∀ a ∈ readAddrs (decodeRun inp out m).port.accesses,
    inp.base ≤ a ∧ a < inp.base + inp.len ∧ a ≤ inp.base + (decodeRun inp out m).r

/-- DECODE's loop ends within L blocks: allowing more of them changes nothing (42_decoder.md R95,
70_reset_and_hazards.md R134). -/
def Obligations.DecodeLoopEndsWithinInputLength : Prop :=
  ∀ (inp out : Window) (m : Memory) (fuel : Nat), 1 ≤ inp.len → inp.len ≤ fuel →
    decodeLoop inp out fuel (decodeStart m) = decodeRun inp out m ∧ (decodeRun inp out m).r ≤ inp.len

/-- Every admitted DECODE, malformed input and an output window at or below the input included, completes and writes
what the stream alone determines: the input bytes are those at its issue (42_decoder.md R94, R96, R87 to R91). -/
def Obligations.DecodeWritesWhatTheStreamDetermines : Prop :=
  ∀ (s : State) (inp out : Window), DecodeAdmitted s inp out → DecodeSized inp.len out.len →
    ∃ t, exec .decode s = .next t ∧ OnlyResultAndMem s t ∧
      t.result = .value (decodedBytes (inp.bytes s.mem)).length ∧
      Window.bytes ⟨out.base, (decodedBytes (inp.bytes s.mem)).length⟩ t.mem = decodedBytes (inp.bytes s.mem) ∧
      SameOutside s.mem t.mem out.base (decodedBytes (inp.bytes s.mem)).length

/-- A stream of well-formed blocks, ended by the window's end or by a delimiter with anything after it, decodes to the
payload of its blocks: no implied zero after an escape block or after the final block, whichever way the stream ends
(30_encoding.md R58 to R62). -/
def Obligations.DecodeOfBlocksIsTheirPayload : Prop :=
  ∀ (s : State) (inp out : Window) (blocks : List Block) (junk : List Byte),
    DecodeAdmitted s inp out → DecodeSized inp.len out.len → blocks ≠ [] → (∀ b ∈ blocks, b.wf) →
    (inp.bytes s.mem = blocksBytes blocks ∨ inp.bytes s.mem = blocksBytes blocks ++ 0x00#8 :: junk) →
    ∃ t, exec .decode s = .next t ∧ t.result = .value (payload blocks).length ∧
      Window.bytes ⟨out.base, (payload blocks).length⟩ t.mem = payload blocks

/-- The older encoder variant's streams, in which a final escape block is followed by the block 01, decode to the same
payload as without that block (42_decoder.md R99). -/
def Obligations.DecodeOfOlderVariantStream : Prop :=
  ∀ (s : State) (inp out : Window) (blocks : List Block) (last : Block),
    DecodeAdmitted s inp out → DecodeSized inp.len out.len → (∀ b ∈ blocks ++ [last], b.wf) →
    last.code = 0xFF#8 → inp.bytes s.mem = blocksBytes (blocks ++ [last]) ++ [0x01#8] →
    ∃ t, exec .decode s = .next t ∧ t.result = .value (payload (blocks ++ [last])).length ∧
      Window.bytes ⟨out.base, (payload (blocks ++ [last])).length⟩ t.mem = payload (blocks ++ [last])

/-- A successful DECODE returns 0 and changes nothing else when the stream's first code is 01, or 00, and the next byte
is 00 (42_decoder.md R97, R88). -/
def Obligations.DecodeOfEmptyPayloadReturnsZero : Prop :=
  ∀ (s : State) (inp out : Window), DecodeAdmitted s inp out → DecodeSized inp.len out.len →
    (Memory.read s.mem inp.base = 0x01#8 ∨ Memory.read s.mem inp.base = 0x00#8) →
    Memory.read s.mem (inp.base + 1) = 0x00#8 →
    exec .decode s = .next { s with result := .value 0 }

/-! ### DECIP -/

/-- DECIP completes whenever ARG0 and ARG1 hold a window in range, whatever the bytes and whatever ARG2 and ARG3 hold
(43_inplace_decoder.md R101); a window out of range is refused (20_memory.md R34). -/
def Obligations.DecipCompletesOrRefusesRange : Prop :=
  ∀ (s : State) (buf : Window), HoldsOneWindow s buf →
    (buf.Fits s.cfg → ∃ t count, exec .decip s = .next t ∧ t.result = .value count ∧ OnlyResultAndMem s t) ∧
    (¬ buf.Fits s.cfg → exec .decip s = .refused .windowRange)

/-- DECIP fails, returning 0 and writing nothing, exactly when L < 2; otherwise it ends with the write cursor and the
memory of DECODE's loop over the one window (43_inplace_decoder.md R102). -/
def Obligations.DecipFailsExactlyBelowTwoBytes : Prop :=
  ∀ (s : State) (buf : Window), DecipAdmitted s buf →
    (buf.len < 2 → exec .decip s = .next { s with result := .value 0 }) ∧
    (2 ≤ buf.len → exec .decip s = .next { s with result := .value (decodeRun buf buf s.mem).w,
                                                  mem := (decodeRun buf buf s.mem).port.mem })

/-- The frame of DECIP: only RESULT and, in MEM, the RESULT bytes from BUF_BASE on may change, so the window's bytes at
offsets RESULT to L - 1 keep their values (43_inplace_decoder.md R104); a successful one returns RESULT <= L - 1
(43_inplace_decoder.md R105). -/
def Obligations.DecipFrameKeepsTheTail : Prop :=
  ∀ (s t : State) (buf : Window), DecipAdmitted s buf → exec .decip s = .next t →
    OnlyResultAndMem s t ∧
    ∃ count, t.result = .value count ∧ count ≤ buf.len - 1 ∧ SameOutside s.mem t.mem buf.base count ∧
      ∀ k, count ≤ k → k < buf.len → Memory.read t.mem (buf.base + k) = Memory.read s.mem (buf.base + k)

/-- For any window, `DECODE b, L, b, L` has the same outcome, RESULT and MEM writes as `DECIP b, L`
(30_encoding.md R57). -/
def Obligations.DecodeOntoItselfEqualsDecip : Prop :=
  ∀ (s u : State) (buf : Window), HoldsOneWindow s buf → HoldsTwoWindows u buf buf → u.cfg = s.cfg → u.mem = s.mem →
    stopReason (exec .decode u) = stopReason (exec .decip s) ∧
    ∀ t, exec .decip s = .next t → ∃ t', exec .decode u = .next t' ∧ t'.result = t.result ∧ t'.mem = t.mem

/-- DECIP's RESULT and payload bytes equal those of a DECODE of the same stream into a separate output window with
capacity L (43_inplace_decoder.md R103). -/
def Obligations.DecipMatchesDecodeIntoSeparateWindow : Prop :=
  ∀ (s u : State) (buf inp out : Window), DecipAdmitted s buf → DecodeAdmitted u inp out → ¬ inp.Shares out →
    inp.len = buf.len → out.len = buf.len → inp.bytes u.mem = buf.bytes s.mem →
    ∃ t t' count, exec .decip s = .next t ∧ exec .decode u = .next t' ∧
      t.result = .value count ∧ t'.result = .value count ∧
      Window.bytes ⟨buf.base, count⟩ t.mem = Window.bytes ⟨out.base, count⟩ t'.mem

/-! ### Round trip -/

/-- The encodings round-trip (42_decoder.md R98): what a successful ENCODE wrote, decoded by DECODE with a capacity of
at least its length less one, or by DECIP in place, gives RESULT = n and the input's bytes, with or without the
delimiter, for the empty input too. -/
def Obligations.DecodingAnEncodingGivesTheInputBack : Prop :=
  ∀ (s t u : State) (inp out dst : Window) (d : Bool) (len : Nat),
    EncodeAdmitted s inp out → bufferSize inp.len d ≤ out.len → exec (.encode d) s = .next t →
    t.result = .value len → u.mem = t.mem →
    (DecodeAdmitted u ⟨out.base, len⟩ dst → len - 1 ≤ dst.len →
      ∃ x, exec .decode u = .next x ∧ x.result = .value inp.len ∧
        Window.bytes ⟨dst.base, inp.len⟩ x.mem = inp.bytes s.mem ∧ SameOutside u.mem x.mem dst.base inp.len) ∧
    (DecipAdmitted u ⟨out.base, len⟩ →
      ∃ x, exec .decip u = .next x ∧ x.result = .value inp.len ∧
        Window.bytes ⟨out.base, inp.len⟩ x.mem = inp.bytes s.mem ∧ SameOutside u.mem x.mem out.base inp.len)
end

