-- ==== Sys2Proof/Laws/Memory.lean ====
section
/-! SUPPORT. The laws of MEM: read after write, the canonical form, and equality of memories that read alike. -/

namespace Sys2Proof.Machine

@[simp] theorem Memory.read_nil (a : Nat) : Memory.read [] a = Config.unlistedByte := rfl

theorem Memory.read_cons (c : Host.Cell) (m : Memory) (a : Nat) :
    Memory.read (c :: m) a = if c.1 = a then c.2 else Memory.read m a := rfl

/-- Reading an address that is not listed. -/
theorem Memory.read_unlisted (m : Memory) (a : Nat) (h : ∀ c ∈ m, c.1 ≠ a) :
    Memory.read m a = Config.unlistedByte := by
  induction m with
  | nil => rfl
  | cons c rest ih =>
    rw [Memory.read_cons, if_neg (h c (by simp)), ih fun e he => h e (by simp [he])]

/-- Reading an address after its entries were removed. -/
theorem Memory.read_filter_same (m : Memory) (a : Nat) :
    Memory.read (m.filter fun c => c.1 != a) a = Config.unlistedByte :=
  Memory.read_unlisted _ _ fun c hc => by simpa using (List.mem_filter.1 hc).2

/-- Removing the entries of one address leaves the others. -/
theorem Memory.read_filter_other (m : Memory) (a x : Nat) (h : x ≠ a) :
    Memory.read (m.filter fun c => c.1 != a) x = Memory.read m x := by
  induction m with
  | nil => rfl
  | cons c rest ih =>
    by_cases hc : c.1 = a
    · have hx : c.1 ≠ x := fun e => h (e.symm.trans hc)
      simp [hc, Memory.read_cons, ih, h.symm]
    · simp [hc, Memory.read_cons, ih]

theorem Memory.read_list_same (m : Memory) (a : Nat) (b : Byte) : Memory.read (Memory.list m a b) a = b := by
  induction m with
  | nil => simp [Memory.list, Memory.read_cons]
  | cons c rest ih =>
    simp only [Memory.list]
    split_ifs with h1 h2
    · simp [Memory.read_cons]
    · simp [Memory.read_cons]
    · rw [Memory.read_cons, if_neg (fun e => h2 e.symm), ih]

theorem Memory.read_list_other (m : Memory) (a x : Nat) (b : Byte) (h : x ≠ a) :
    Memory.read (Memory.list m a b) x = Memory.read m x := by
  induction m with
  | nil => simp [Memory.list, Memory.read_cons, h.symm]
  | cons c rest ih =>
    simp only [Memory.list]
    split_ifs with h1 h2
    · simp [Memory.read_cons, h.symm]
    · simp [Memory.read_cons, h.symm, ← h2]
    · simp [Memory.read_cons, ih]

/-- A read after a write to the same address gives the byte written. -/
@[simp] theorem Memory.read_write_same (m : Memory) (a : Nat) (b : Byte) : Memory.read (Memory.write m a b) a = b := by
  unfold Memory.write
  split_ifs with h
  · rw [Memory.read_filter_same, h]
  · exact Memory.read_list_same m a b

/-- A write leaves every other address. -/
theorem Memory.read_write_other (m : Memory) (a x : Nat) (b : Byte) (h : x ≠ a) :
    Memory.read (Memory.write m a b) x = Memory.read m x := by
  unfold Memory.write
  split_ifs
  · exact Memory.read_filter_other m a x h
  · exact Memory.read_list_other m a x b h

/-- What a read after a write gives, in one equation. -/
theorem Memory.read_write (m : Memory) (a x : Nat) (b : Byte) :
    Memory.read (Memory.write m a b) x = if x = a then b else Memory.read m x := by
  split_ifs with h
  · rw [h, Memory.read_write_same]
  · exact Memory.read_write_other m a x b h

/-! ### The canonical form -/

/-- Every entry after listing a byte is that byte's, or was there before. -/
theorem Memory.mem_list (m : Memory) (a : Nat) (b : Byte) (c : Host.Cell) (h : c ∈ Memory.list m a b) :
    c = (a, b) ∨ c ∈ m := by
  induction m with
  | nil => exact .inl (by simpa [Memory.list] using h)
  | cons e rest ih =>
    simp only [Memory.list] at h
    split_ifs at h with h1 h2
    · simpa using h
    · rcases List.mem_cons.1 h with h | h
      · exact .inl h
      · exact .inr (List.mem_cons_of_mem _ h)
    · rcases List.mem_cons.1 h with h | h
      · exact .inr (by simp [h])
      · exact (ih h).imp_right (List.mem_cons_of_mem _)

/-- Every entry after a write is the byte written, or was there before. -/
theorem Memory.mem_write (m : Memory) (a : Nat) (b : Byte) (c : Host.Cell) (h : c ∈ Memory.write m a b) :
    c = (a, b) ∨ c ∈ m := by
  unfold Memory.write at h
  split_ifs at h
  · exact .inr (List.mem_filter.1 h).1
  · exact Memory.mem_list m a b c h

theorem Memory.list_rising (m : Memory) (a : Nat) (b : Byte) (h : List.Pairwise (fun c e => c.1 < e.1) m) :
    List.Pairwise (fun c e : Host.Cell => c.1 < e.1) (Memory.list m a b) := by
  induction m with
  | nil => simp [Memory.list]
  | cons c rest ih =>
    obtain ⟨hc, hr⟩ := List.pairwise_cons.1 h
    simp only [Memory.list]
    split_ifs with h1 h2
    · refine List.pairwise_cons.2 ⟨fun e he => ?_, h⟩
      rcases List.mem_cons.1 he with rfl | he
      · exact h1
      · exact h1.trans (hc e he)
    · exact List.pairwise_cons.2 ⟨fun e he => h2 ▸ hc e he, hr⟩
    · refine List.pairwise_cons.2 ⟨fun e he => ?_, ih hr⟩
      rcases Memory.mem_list rest a b e he with rfl | he
      · exact lt_of_le_of_ne (not_lt.1 h1) fun e => h2 e.symm
      · exact hc e he

/-- A write keeps the canonical form. -/
theorem Memory.wf_write (m : Memory) (a : Nat) (b : Byte) (h : Memory.wf m) : Memory.wf (Memory.write m a b) := by
  refine ⟨?_, fun c hc => ?_⟩
  · unfold Memory.write
    split_ifs
    · exact List.Pairwise.filter _ h.1
    · exact Memory.list_rising m a b h.1
  · unfold Memory.write at hc
    split_ifs at hc with hb
    · exact h.2 c (List.mem_filter.1 hc).1
    · rcases Memory.mem_list m a b c hc with rfl | hc
      · exact hb
      · exact h.2 c hc

/-- Empty memory is in canonical form. -/
theorem Memory.wf_nil : Memory.wf [] := ⟨List.Pairwise.nil, by simp⟩

/-- A write below `bound` keeps every listed address below `bound`. -/
theorem Memory.below_write (m : Memory) (a bound : Nat) (b : Byte) (ha : a < bound) (h : ∀ c ∈ m, c.1 < bound) :
    ∀ c ∈ Memory.write m a b, c.1 < bound := by
  intro c hc
  rcases Memory.mem_write m a b c hc with rfl | hc
  · exact ha
  · exact h c hc

/-- Placing consecutive bytes keeps the canonical form. -/
theorem Memory.wf_writeBytes (m : Memory) (a : Nat) (bs : List Byte) (h : Memory.wf m) :
    Memory.wf (Memory.writeBytes m a bs) := by
  induction bs generalizing m a with
  | nil => exact h
  | cons b bs ih => exact ih _ _ (Memory.wf_write m a b h)

/-- An entry of a canonical memory is what its address reads as. -/
theorem Memory.read_of_mem (m : Memory) (h : Memory.wf m) (c : Host.Cell) (hc : c ∈ m) : Memory.read m c.1 = c.2 := by
  induction m with
  | nil => simp at hc
  | cons e rest ih =>
    obtain ⟨he, hr⟩ := List.pairwise_cons.1 h.1
    rcases List.mem_cons.1 hc with rfl | hc
    · simp [Memory.read_cons]
    · rw [Memory.read_cons, if_neg (he c hc).ne]
      exact ih ⟨hr, fun x hx => h.2 x (by simp [hx])⟩ hc

/-- Two canonical memories that read alike everywhere are equal lists. -/
theorem Memory.ext_of_read (m n : Memory) (hm : Memory.wf m) (hn : Memory.wf n)
    (h : ∀ a, Memory.read m a = Memory.read n a) : m = n := by
  have sub : ∀ x y : Memory, Memory.wf x → Memory.wf y → (∀ a, Memory.read x a = Memory.read y a) → x ⊆ y := by
    intro x y hx hy hxy c hc
    by_contra hn
    have hr : Memory.read y c.1 = c.2 := (hxy c.1).symm.trans (Memory.read_of_mem x hx c hc)
    have hu : Memory.read y c.1 = Config.unlistedByte := by
      refine Memory.read_unlisted y c.1 fun e he hec => hn ?_
      have : e.2 = c.2 := by rw [← Memory.read_of_mem y hy e he, hec, hr]
      rwa [← Prod.ext hec this]
    exact hx.2 c hc (hr.symm.trans hu)
  exact List.Perm.eq_of_pairwise (fun a b _ _ h1 h2 => absurd h1 (lt_asymm h2)) hm.1 hn.1
    ((List.perm_ext_iff_of_nodup (hm.1.imp fun h e => absurd (e ▸ h) (lt_irrefl _))
      (hn.1.imp fun h e => absurd (e ▸ h) (lt_irrefl _))).2 fun c =>
        ⟨fun hc => sub m n hm hn h hc, fun hc => sub n m hn hm (fun a => (h a).symm) hc⟩)

/-! ### Windows -/

@[simp] theorem Window.length_bytes (w : Window) (m : Memory) : (w.bytes m).length = w.len := by
  simp [Window.bytes]

/-- Byte `k` of a window is the byte at address base + k (20_memory.md R33). -/
theorem Window.getElem_bytes (w : Window) (m : Memory) (k : Nat) (h : k < (w.bytes m).length) :
    (w.bytes m)[k] = Memory.read m (w.base + k) := by
  simp [Window.bytes]

/-- Two memories that agree on a window hold the same bytes in it. -/
theorem Window.bytes_congr (w : Window) (m n : Memory)
    (h : ∀ k, k < w.len → Memory.read m (w.base + k) = Memory.read n (w.base + k)) : w.bytes m = w.bytes n := by
  unfold Window.bytes
  exact List.map_congr_left fun k hk => h k (List.mem_range.1 hk)

end Sys2Proof.Machine
end

