-- ==== Sys2Proof/Laws/State.lean ====
section
/-! SUPPORT. One lemma per field of State per named update, true by rfl, so that no later proof unfolds an update; and
the reads of registers after each update. -/

namespace Sys2Proof.Machine

/-! ### latchCmd (10_state.md R16) -/

@[simp] theorem latchCmd_cfg (v : CmdWord) (s : State) :
    (latchCmd v s).cfg = s.cfg := rfl
@[simp] theorem latchCmd_cmd (v : CmdWord) (s : State) :
    (latchCmd v s).cmd = .value v := rfl
@[simp] theorem latchCmd_arg0 (v : CmdWord) (s : State) :
    (latchCmd v s).arg0 = s.arg0 := rfl
@[simp] theorem latchCmd_arg1 (v : CmdWord) (s : State) :
    (latchCmd v s).arg1 = s.arg1 := rfl
@[simp] theorem latchCmd_arg2 (v : CmdWord) (s : State) :
    (latchCmd v s).arg2 = s.arg2 := rfl
@[simp] theorem latchCmd_arg3 (v : CmdWord) (s : State) :
    (latchCmd v s).arg3 = s.arg3 := rfl
@[simp] theorem latchCmd_result (v : CmdWord) (s : State) :
    (latchCmd v s).result = s.result := rfl
@[simp] theorem latchCmd_mem (v : CmdWord) (s : State) :
    (latchCmd v s).mem = s.mem := rfl
@[simp] theorem latchCmd_record (v : CmdWord) (s : State) :
    (latchCmd v s).record = s.record := rfl
@[simp] theorem latchCmd_hostActions (v : CmdWord) (s : State) :
    (latchCmd v s).hostActions = s.hostActions := rfl
@[simp] theorem latchCmd_hostGot (v : CmdWord) (s : State) :
    (latchCmd v s).hostGot = s.hostGot := rfl

/-! ### recordStop (60_exceptions.md R110) -/

@[simp] theorem recordStop_cfg (s : State) (x : Stop) :
    (recordStop s x).cfg = s.cfg := rfl
@[simp] theorem recordStop_cmd (s : State) (x : Stop) :
    (recordStop s x).cmd = s.cmd := rfl
@[simp] theorem recordStop_arg0 (s : State) (x : Stop) :
    (recordStop s x).arg0 = s.arg0 := rfl
@[simp] theorem recordStop_arg1 (s : State) (x : Stop) :
    (recordStop s x).arg1 = s.arg1 := rfl
@[simp] theorem recordStop_arg2 (s : State) (x : Stop) :
    (recordStop s x).arg2 = s.arg2 := rfl
@[simp] theorem recordStop_arg3 (s : State) (x : Stop) :
    (recordStop s x).arg3 = s.arg3 := rfl
@[simp] theorem recordStop_result (s : State) (x : Stop) :
    (recordStop s x).result = s.result := rfl
@[simp] theorem recordStop_mem (s : State) (x : Stop) :
    (recordStop s x).mem = s.mem := rfl
@[simp] theorem recordStop_record (s : State) (x : Stop) :
    (recordStop s x).record = some x := rfl
@[simp] theorem recordStop_hostActions (s : State) (x : Stop) :
    (recordStop s x).hostActions = s.hostActions := rfl
@[simp] theorem recordStop_hostGot (s : State) (x : Stop) :
    (recordStop s x).hostGot = s.hostGot := rfl

/-! ### hostReceives (70_reset_and_hazards.md R125) -/

@[simp] theorem hostReceives_cfg (v : Nat) (s : State) :
    (hostReceives v s).cfg = s.cfg := rfl
@[simp] theorem hostReceives_cmd (v : Nat) (s : State) :
    (hostReceives v s).cmd = s.cmd := rfl
@[simp] theorem hostReceives_arg0 (v : Nat) (s : State) :
    (hostReceives v s).arg0 = s.arg0 := rfl
@[simp] theorem hostReceives_arg1 (v : Nat) (s : State) :
    (hostReceives v s).arg1 = s.arg1 := rfl
@[simp] theorem hostReceives_arg2 (v : Nat) (s : State) :
    (hostReceives v s).arg2 = s.arg2 := rfl
@[simp] theorem hostReceives_arg3 (v : Nat) (s : State) :
    (hostReceives v s).arg3 = s.arg3 := rfl
@[simp] theorem hostReceives_result (v : Nat) (s : State) :
    (hostReceives v s).result = s.result := rfl
@[simp] theorem hostReceives_mem (v : Nat) (s : State) :
    (hostReceives v s).mem = s.mem := rfl
@[simp] theorem hostReceives_record (v : Nat) (s : State) :
    (hostReceives v s).record = s.record := rfl
@[simp] theorem hostReceives_hostActions (v : Nat) (s : State) :
    (hostReceives v s).hostActions = s.hostActions := rfl
@[simp] theorem hostReceives_hostGot (v : Nat) (s : State) :
    (hostReceives v s).hostGot = v :: s.hostGot := rfl

/-! ### applyReset (70_reset_and_hazards.md R121) -/

@[simp] theorem applyReset_cfg (s : State) :
    (applyReset s).cfg = s.cfg := rfl
@[simp] theorem applyReset_cmd (s : State) :
    (applyReset s).cmd = .unwritten := rfl
@[simp] theorem applyReset_arg0 (s : State) :
    (applyReset s).arg0 = .unwritten := rfl
@[simp] theorem applyReset_arg1 (s : State) :
    (applyReset s).arg1 = .unwritten := rfl
@[simp] theorem applyReset_arg2 (s : State) :
    (applyReset s).arg2 = .unwritten := rfl
@[simp] theorem applyReset_arg3 (s : State) :
    (applyReset s).arg3 = .unwritten := rfl
@[simp] theorem applyReset_result (s : State) :
    (applyReset s).result = .unwritten := rfl
@[simp] theorem applyReset_mem (s : State) :
    (applyReset s).mem = s.mem := rfl
@[simp] theorem applyReset_record (s : State) :
    (applyReset s).record = none := rfl
@[simp] theorem applyReset_hostActions (s : State) :
    (applyReset s).hostActions = s.hostActions := rfl
@[simp] theorem applyReset_hostGot (s : State) :
    (applyReset s).hostGot = s.hostGot := rfl

/-! ### State.resetWith (70_reset_and_hazards.md R121) -/

@[simp] theorem resetWith_cfg (c : Config) (m : Memory) :
    (State.resetWith c m).cfg = c := rfl
@[simp] theorem resetWith_cmd (c : Config) (m : Memory) :
    (State.resetWith c m).cmd = .unwritten := rfl
@[simp] theorem resetWith_arg0 (c : Config) (m : Memory) :
    (State.resetWith c m).arg0 = .unwritten := rfl
@[simp] theorem resetWith_arg1 (c : Config) (m : Memory) :
    (State.resetWith c m).arg1 = .unwritten := rfl
@[simp] theorem resetWith_arg2 (c : Config) (m : Memory) :
    (State.resetWith c m).arg2 = .unwritten := rfl
@[simp] theorem resetWith_arg3 (c : Config) (m : Memory) :
    (State.resetWith c m).arg3 = .unwritten := rfl
@[simp] theorem resetWith_result (c : Config) (m : Memory) :
    (State.resetWith c m).result = .unwritten := rfl
@[simp] theorem resetWith_mem (c : Config) (m : Memory) :
    (State.resetWith c m).mem = m := rfl
@[simp] theorem resetWith_record (c : Config) (m : Memory) :
    (State.resetWith c m).record = none := rfl
@[simp] theorem resetWith_hostActions (c : Config) (m : Memory) :
    (State.resetWith c m).hostActions = [] := rfl
@[simp] theorem resetWith_hostGot (c : Config) (m : Memory) :
    (State.resetWith c m).hostGot = [] := rfl

/-! ### writeArg (10_state.md R14) -/

@[simp] theorem writeArg_cfg (s : State) (k : ArgIndex) (v : Nat) :
    (writeArg s k v).cfg = s.cfg := by cases k <;> rfl
@[simp] theorem writeArg_cmd (s : State) (k : ArgIndex) (v : Nat) :
    (writeArg s k v).cmd = s.cmd := by cases k <;> rfl
@[simp] theorem writeArg_arg0_arg0 (s : State) (v : Nat) :
    (writeArg s .arg0 v).arg0 = .value v := rfl
@[simp] theorem writeArg_arg1_arg0 (s : State) (v : Nat) :
    (writeArg s .arg1 v).arg0 = s.arg0 := rfl
@[simp] theorem writeArg_arg2_arg0 (s : State) (v : Nat) :
    (writeArg s .arg2 v).arg0 = s.arg0 := rfl
@[simp] theorem writeArg_arg3_arg0 (s : State) (v : Nat) :
    (writeArg s .arg3 v).arg0 = s.arg0 := rfl
@[simp] theorem writeArg_arg0_arg1 (s : State) (v : Nat) :
    (writeArg s .arg0 v).arg1 = s.arg1 := rfl
@[simp] theorem writeArg_arg1_arg1 (s : State) (v : Nat) :
    (writeArg s .arg1 v).arg1 = .value v := rfl
@[simp] theorem writeArg_arg2_arg1 (s : State) (v : Nat) :
    (writeArg s .arg2 v).arg1 = s.arg1 := rfl
@[simp] theorem writeArg_arg3_arg1 (s : State) (v : Nat) :
    (writeArg s .arg3 v).arg1 = s.arg1 := rfl
@[simp] theorem writeArg_arg0_arg2 (s : State) (v : Nat) :
    (writeArg s .arg0 v).arg2 = s.arg2 := rfl
@[simp] theorem writeArg_arg1_arg2 (s : State) (v : Nat) :
    (writeArg s .arg1 v).arg2 = s.arg2 := rfl
@[simp] theorem writeArg_arg2_arg2 (s : State) (v : Nat) :
    (writeArg s .arg2 v).arg2 = .value v := rfl
@[simp] theorem writeArg_arg3_arg2 (s : State) (v : Nat) :
    (writeArg s .arg3 v).arg2 = s.arg2 := rfl
@[simp] theorem writeArg_arg0_arg3 (s : State) (v : Nat) :
    (writeArg s .arg0 v).arg3 = s.arg3 := rfl
@[simp] theorem writeArg_arg1_arg3 (s : State) (v : Nat) :
    (writeArg s .arg1 v).arg3 = s.arg3 := rfl
@[simp] theorem writeArg_arg2_arg3 (s : State) (v : Nat) :
    (writeArg s .arg2 v).arg3 = s.arg3 := rfl
@[simp] theorem writeArg_arg3_arg3 (s : State) (v : Nat) :
    (writeArg s .arg3 v).arg3 = .value v := rfl
@[simp] theorem writeArg_result (s : State) (k : ArgIndex) (v : Nat) :
    (writeArg s k v).result = s.result := by cases k <;> rfl
@[simp] theorem writeArg_mem (s : State) (k : ArgIndex) (v : Nat) :
    (writeArg s k v).mem = s.mem := by cases k <;> rfl
@[simp] theorem writeArg_record (s : State) (k : ArgIndex) (v : Nat) :
    (writeArg s k v).record = s.record := by cases k <;> rfl
@[simp] theorem writeArg_hostActions (s : State) (k : ArgIndex) (v : Nat) :
    (writeArg s k v).hostActions = s.hostActions := by cases k <;> rfl
@[simp] theorem writeArg_hostGot (s : State) (k : ArgIndex) (v : Nat) :
    (writeArg s k v).hostGot = s.hostGot := by cases k <;> rfl

/-! ### Reading registers -/

@[simp] theorem readArg_arg0 (s : State) : readArg s .arg0 = s.arg0 := rfl
@[simp] theorem readArg_arg1 (s : State) : readArg s .arg1 = s.arg1 := rfl
@[simp] theorem readArg_arg2 (s : State) : readArg s .arg2 = s.arg2 := rfl
@[simp] theorem readArg_arg3 (s : State) : readArg s .arg3 = s.arg3 := rfl

@[simp] theorem readReg_cmd (s : State) : readReg s .cmd = Reg.map BitVec.toNat s.cmd := rfl
@[simp] theorem readReg_arg (s : State) (k : ArgIndex) : readReg s (.arg k) = readArg s k := rfl
@[simp] theorem readReg_result (s : State) : readReg s .result = s.result := rfl

@[simp] theorem Reg.map_unwritten {α β : Type} (f : α → β) : Reg.map f .unwritten = .unwritten := rfl
@[simp] theorem Reg.map_value {α β : Type} (f : α → β) (v : α) : Reg.map f (.value v) = .value (f v) := rfl

/-- An ARG register written holds the value. -/
@[simp] theorem readArg_writeArg_same (s : State) (k : ArgIndex) (v : Nat) : readArg (writeArg s k v) k = .value v := by
  cases k <;> rfl

/-- Writing one ARG register leaves the others. -/
theorem readArg_writeArg_other (s : State) (k j : ArgIndex) (v : Nat) (h : j ≠ k) :
    readArg (writeArg s k v) j = readArg s j := by
  cases k <;> cases j <;> first | rfl | exact absurd rfl h

/-- After a reset every register is unwritten. -/
@[simp] theorem readReg_applyReset (s : State) (r : RegName) : readReg (applyReset s) r = .unwritten := by
  cases r with
  | cmd => rfl
  | arg k => cases k <;> rfl
  | result => rfl

/-- Filling an operand register gives it a value. -/
theorem fillOperand_written (s : State) (k : ArgIndex) : readArg (fillOperand s k) k ≠ .unwritten := by
  unfold fillOperand
  split
  · simp
  · rename_i v h
    simp [h]

/-- A register that holds a value keeps it when operand registers are filled. -/
theorem fillOperand_keeps (s : State) (k j : ArgIndex) (v : Nat) (h : readArg s j = .value v) :
    readArg (fillOperand s k) j = .value v := by
  unfold fillOperand
  split
  · rename_i hk
    by_cases hj : j = k
    · subst hj
      simp [h] at hk
    · rw [readArg_writeArg_other _ _ _ _ hj, h]
  · exact h

end Sys2Proof.Machine
end

