-- ==== Sys2Proof/Laws/Ops.lean ====
section
/-! SUPPORT. What each shared operation can do, said once: operands, windows, failure conditions, completion, the
engine's port, and each instruction's meaning taken apart by its checks. -/

namespace Sys2Proof.Machine

/-! ### The port -/

@[simp] theorem Port.start_mem (m : Memory) : (Port.start m).mem = m := rfl
@[simp] theorem Port.start_accesses (m : Memory) : (Port.start m).accesses = [] := rfl
@[simp] theorem Port.afterRead_mem (p : Port) (a : Nat) : (p.afterRead a).mem = p.mem := rfl
@[simp] theorem Port.afterRead_accesses (p : Port) (a : Nat) : (p.afterRead a).accesses = .read a :: p.accesses := rfl
@[simp] theorem Port.afterWrite_mem (p : Port) (a : Nat) (b : Byte) : (p.afterWrite a b).mem = Memory.write p.mem a b := rfl
@[simp] theorem Port.afterWrite_accesses (p : Port) (a : Nat) (b : Byte) :
    (p.afterWrite a b).accesses = .write a b :: p.accesses := rfl
@[simp] theorem Port.byteAt_afterRead (p : Port) (a x : Nat) : (p.afterRead a).byteAt x = p.byteAt x := rfl
theorem Port.byteAt_eq (p : Port) (a : Nat) : p.byteAt a = Memory.read p.mem a := rfl
@[simp] theorem Port.byteAt_afterWrite (p : Port) (a x : Nat) (b : Byte) :
    (p.afterWrite a b).byteAt x = if x = a then b else p.byteAt x := Memory.read_write p.mem a x b

@[simp] theorem readAddrs_nil : readAddrs [] = [] := rfl
@[simp] theorem readAddrs_read (a : Nat) (l : List Access) : readAddrs (.read a :: l) = a :: readAddrs l := rfl
@[simp] theorem readAddrs_write (a : Nat) (b : Byte) (l : List Access) : readAddrs (.write a b :: l) = readAddrs l := rfl
@[simp] theorem writeAddrs_nil : writeAddrs [] = [] := rfl
@[simp] theorem writeAddrs_read (a : Nat) (l : List Access) : writeAddrs (.read a :: l) = writeAddrs l := rfl
@[simp] theorem writeAddrs_write (a : Nat) (b : Byte) (l : List Access) :
    writeAddrs (.write a b :: l) = a :: writeAddrs l := rfl

@[simp] theorem readAddrs_append (l m : List Access) : readAddrs (l ++ m) = readAddrs l ++ readAddrs m := by
  induction l with
  | nil => rfl
  | cons x l ih => cases x <;> simp [ih]

@[simp] theorem writeAddrs_append (l m : List Access) : writeAddrs (l ++ m) = writeAddrs l ++ writeAddrs m := by
  induction l with
  | nil => rfl
  | cons x l ih => cases x <;> simp [ih]

@[simp] theorem readAddrs_reverse (l : List Access) : readAddrs l.reverse = (readAddrs l).reverse := by
  induction l with
  | nil => rfl
  | cons x l ih => cases x <;> simp [ih]

@[simp] theorem writeAddrs_reverse (l : List Access) : writeAddrs l.reverse = (writeAddrs l).reverse := by
  induction l with
  | nil => rfl
  | cons x l ih => cases x <;> simp [ih]

/-! ### Checks as propositions -/

@[simp] theorem Window.inRange_iff (w : Window) (c : Config) : w.inRange c = true ↔ w.Fits c := by
  simp [Window.inRange]

@[simp] theorem Window.overlaps_iff (x y : Window) : x.overlaps y = true ↔ x.Shares y := by
  simp [Window.overlaps, and_assoc]

@[simp] theorem decodeOverlaps_iff (x y : Window) : decodeOverlaps x y = true ↔ x.Shares y ∧ x.base < y.base := by
  simp [decodeOverlaps]

@[simp] theorem encodeFails_iff (n cap : Nat) (d : Bool) : encodeFails n cap d = true ↔ cap < bufferSize n d := by
  simp [encodeFails]

@[simp] theorem decodeFails_iff (len cap : Nat) : decodeFails len cap = true ↔ ¬ DecodeSized len cap := by
  simp only [decodeFails, inputTooShort, insufficientOutput, Bool.or_eq_true, decide_eq_true_eq, DecodeSized]
  omega

/-- Every positive capacity check needs a byte: BUFSIZE is at least 1 (41_encoder.md R71, cap = 0 always fails). -/
theorem bufferSize_pos (n : Nat) (d : Bool) : 1 ≤ bufferSize n d := by
  unfold bufferSize Config.maxRun
  omega

/-- With the capacity DECIP gives itself, only L < 2 fails (43_inplace_decoder.md R102's reason). -/
theorem decodeSized_self (len : Nat) : DecodeSized len len ↔ 2 ≤ len := by
  simp only [DecodeSized]
  omega

/-! ### Completion and recording -/

/-- A completed command's next state. -/
@[simp] theorem complete_eq_next (count : Nat) (m : Memory) (s t : State) :
    complete count m s = .next t ↔ { s with result := .value count, mem := m } = t := by
  simp [complete]

@[simp] theorem settle_next (s t : State) : settle s (.next t) = t := rfl
@[simp] theorem settle_fault (s : State) (f : Fault) : settle s (.fault f) = recordStop s (.fault f) := rfl
@[simp] theorem settle_refused (s : State) (r : Refusal) : settle s (.refused r) = recordStop s (.refused r) := rfl
@[simp] theorem stopReason_next (t : State) : stopReason (.next t) = none := rfl
@[simp] theorem stopReason_fault (f : Fault) : stopReason (.fault f) = some (.fault f) := rfl
@[simp] theorem stopReason_refused (r : Refusal) : stopReason (.refused r) = some (.refused r) := rfl

/-! ### Operands (30_encoding.md R55) -/

theorem withOperand_value {s : State} {k : ArgIndex} {v : Nat} (h : readArg s k = .value v) (use : Nat → Result) :
    withOperand s k use = use v := by
  simp [withOperand, h]

theorem withOperand_unwritten {s : State} {k : ArgIndex} (h : readArg s k = .unwritten) (use : Nat → Result) :
    withOperand s k use = .fault .unwrittenReg := by
  simp [withOperand, h]

/-- A read operand either is unwritten, and faults, or goes on with its value. -/
theorem withOperand_cases (s : State) (k : ArgIndex) (use : Nat → Result) :
    (readArg s k = .unwritten ∧ withOperand s k use = .fault .unwrittenReg) ∨
      ∃ v, readArg s k = .value v ∧ withOperand s k use = use v := by
  cases h : readArg s k with
  | unwritten => exact .inl ⟨rfl, withOperand_unwritten h use⟩
  | value v => exact .inr ⟨v, rfl, withOperand_value h use⟩

/-- Two windows are read, or an operand register faults. -/
theorem withTwoWindows_cases (s : State) (use : Window → Window → Result) :
    ((∃ k, readArg s k = .unwritten) ∧ withTwoWindows s use = .fault .unwrittenReg) ∨
      ∃ inp out, HoldsTwoWindows s inp out ∧ withTwoWindows s use = use inp out := by
  unfold withTwoWindows
  rcases withOperand_cases s .arg0 _ with ⟨h, e⟩ | ⟨a, h0, e⟩ <;> rw [e]
  · exact .inl ⟨⟨_, h⟩, rfl⟩
  rcases withOperand_cases s .arg1 _ with ⟨h, e⟩ | ⟨b, h1, e⟩ <;> rw [e]
  · exact .inl ⟨⟨_, h⟩, rfl⟩
  rcases withOperand_cases s .arg2 _ with ⟨h, e⟩ | ⟨c, h2, e⟩ <;> rw [e]
  · exact .inl ⟨⟨_, h⟩, rfl⟩
  rcases withOperand_cases s .arg3 _ with ⟨h, e⟩ | ⟨d, h3, e⟩ <;> rw [e]
  · exact .inl ⟨⟨_, h⟩, rfl⟩
  exact .inr ⟨⟨a, b⟩, ⟨c, d⟩, ⟨h0, h1, h2, h3⟩, rfl⟩

/-- One window is read, or an operand register faults. -/
theorem withOneWindow_cases (s : State) (use : Window → Result) :
    ((readArg s .arg0 = .unwritten ∨ readArg s .arg1 = .unwritten) ∧ withOneWindow s use = .fault .unwrittenReg) ∨
      ∃ buf, HoldsOneWindow s buf ∧ withOneWindow s use = use buf := by
  unfold withOneWindow
  rcases withOperand_cases s .arg0 _ with ⟨h, e⟩ | ⟨a, h0, e⟩ <;> rw [e]
  · exact .inl ⟨.inl h, rfl⟩
  rcases withOperand_cases s .arg1 _ with ⟨h, e⟩ | ⟨b, h1, e⟩ <;> rw [e]
  · exact .inl ⟨.inr h, rfl⟩
  exact .inr ⟨⟨a, b⟩, ⟨h0, h1⟩, rfl⟩

theorem withTwoWindows_holds {s : State} {inp out : Window} (h : HoldsTwoWindows s inp out)
    (use : Window → Window → Result) : withTwoWindows s use = use inp out := by
  obtain ⟨h0, h1, h2, h3⟩ := h
  simp only [← readArg_arg0, ← readArg_arg1, ← readArg_arg2, ← readArg_arg3] at h0 h1 h2 h3
  unfold withTwoWindows
  rw [withOperand_value h0, withOperand_value h1, withOperand_value h2, withOperand_value h3]

theorem withOneWindow_holds {s : State} {buf : Window} (h : HoldsOneWindow s buf) (use : Window → Result) :
    withOneWindow s use = use buf := by
  obtain ⟨h0, h1⟩ := h
  simp only [← readArg_arg0, ← readArg_arg1] at h0 h1
  unfold withOneWindow
  rw [withOperand_value h0, withOperand_value h1]

/-! ### The meanings, once their operands are known -/

/-- What BUFSIZE can do: it faults, or RESULT takes the size. -/
theorem execBufsize_cases (d : Bool) (s : State) :
    (s.arg0 = .unwritten ∧ execBufsize d s = .fault .unwrittenReg) ∨
      ∃ n, s.arg0 = .value n ∧ execBufsize d s = complete (bufferSize n d) s.mem s := by
  rcases withOperand_cases s .arg0 (fun n => complete (bufferSize n d) s.mem s) with ⟨h, e⟩ | ⟨n, h, e⟩
  · exact .inl ⟨h, e⟩
  · exact .inr ⟨n, h, e⟩

/-- ENCODE with its operands known, check by check (60_exceptions.md R111). -/
theorem execEncode_holds {s : State} {inp out : Window} (d : Bool) (h : HoldsTwoWindows s inp out) :
    execEncode d s =
      if ¬ (inp.Fits s.cfg ∧ out.Fits s.cfg) then .refused .windowRange
      else if inp.Shares out then .refused .encodeOverlap
      else if ¬ bufferSize inp.len d ≤ out.len then complete 0 s.mem s
      else complete (encodeRun inp out d s.mem).o (encodeRun inp out d s.mem).port.mem s := by
  unfold execEncode
  rw [withTwoWindows_holds h]
  simp only [Bool.not_eq_true', ← Bool.not_eq_true, Bool.and_eq_true, Window.inRange_iff, Window.overlaps_iff,
    encodeWindows, encodeFails_iff, not_le]

/-- DECODE with its operands known, check by check (60_exceptions.md R111). -/
theorem execDecode_holds {s : State} {inp out : Window} (h : HoldsTwoWindows s inp out) :
    execDecode s =
      if ¬ (inp.Fits s.cfg ∧ out.Fits s.cfg) then .refused .windowRange
      else if inp.Shares out ∧ inp.base < out.base then .refused .decodeOverlap
      else if ¬ DecodeSized inp.len out.len then complete 0 s.mem s
      else complete (decodeRun inp out s.mem).w (decodeRun inp out s.mem).port.mem s := by
  unfold execDecode
  rw [withTwoWindows_holds h]
  simp only [Bool.not_eq_true', ← Bool.not_eq_true, Bool.and_eq_true, Window.inRange_iff, decodeOverlaps_iff,
    decodeWindows, decodeFails_iff]

/-- DECIP with its operands known, check by check (60_exceptions.md R111). -/
theorem execDecip_holds {s : State} {buf : Window} (h : HoldsOneWindow s buf) :
    execDecip s =
      if ¬ buf.Fits s.cfg then .refused .windowRange
      else if ¬ DecodeSized buf.len buf.len then complete 0 s.mem s
      else complete (decodeRun buf buf s.mem).w (decodeRun buf buf s.mem).port.mem s := by
  unfold execDecip
  rw [withOneWindow_holds h]
  simp only [Bool.not_eq_true', ← Bool.not_eq_true, Window.inRange_iff, decodeWindows, decodeFails_iff]

/-- What ENCODE has done when it answers a next state. -/
theorem execEncode_next {d : Bool} {s t : State} (h : execEncode d s = .next t) :
    ∃ inp out, EncodeAdmitted s inp out ∧
      ((¬ bufferSize inp.len d ≤ out.len ∧ t = { s with result := .value 0 }) ∨
        (bufferSize inp.len d ≤ out.len ∧
          t = { s with result := .value (encodeRun inp out d s.mem).o, mem := (encodeRun inp out d s.mem).port.mem })) := by
  have key := h
  unfold execEncode at key
  rcases withTwoWindows_cases s _ with ⟨-, e⟩ | ⟨inp, out, hw, -⟩
  · rw [e] at key
    cases key
  rw [execEncode_holds d hw] at h
  split_ifs at h with h1 h2 h3
  · exact ⟨inp, out, ⟨hw, h1.1, h1.2, h2⟩, .inr ⟨h3, ((complete_eq_next ..).1 h).symm⟩⟩
  · exact ⟨inp, out, ⟨hw, h1.1, h1.2, h2⟩, .inl ⟨h3, ((complete_eq_next ..).1 h).symm⟩⟩

/-- What DECODE has done when it answers a next state. -/
theorem execDecode_next {s t : State} (h : execDecode s = .next t) :
    ∃ inp out, DecodeAdmitted s inp out ∧
      ((¬ DecodeSized inp.len out.len ∧ t = { s with result := .value 0 }) ∨
        (DecodeSized inp.len out.len ∧
          t = { s with result := .value (decodeRun inp out s.mem).w, mem := (decodeRun inp out s.mem).port.mem })) := by
  have key := h
  unfold execDecode at key
  rcases withTwoWindows_cases s _ with ⟨-, e⟩ | ⟨inp, out, hw, -⟩
  · rw [e] at key
    cases key
  rw [execDecode_holds hw] at h
  split_ifs at h with h1 h2 h3
  · exact ⟨inp, out, ⟨hw, h1.1, h1.2, h2⟩, .inr ⟨h3, ((complete_eq_next ..).1 h).symm⟩⟩
  · exact ⟨inp, out, ⟨hw, h1.1, h1.2, h2⟩, .inl ⟨h3, ((complete_eq_next ..).1 h).symm⟩⟩

/-- What DECIP has done when it answers a next state. -/
theorem execDecip_next {s t : State} (h : execDecip s = .next t) :
    ∃ buf, DecipAdmitted s buf ∧
      ((¬ DecodeSized buf.len buf.len ∧ t = { s with result := .value 0 }) ∨
        (DecodeSized buf.len buf.len ∧
          t = { s with result := .value (decodeRun buf buf s.mem).w, mem := (decodeRun buf buf s.mem).port.mem })) := by
  have key := h
  unfold execDecip at key
  rcases withOneWindow_cases s _ with ⟨-, e⟩ | ⟨buf, hw, -⟩
  · rw [e] at key
    cases key
  rw [execDecip_holds hw] at h
  split_ifs at h with h1 h2
  · exact ⟨buf, ⟨hw, h1⟩, .inr ⟨h2, ((complete_eq_next ..).1 h).symm⟩⟩
  · exact ⟨buf, ⟨hw, h1⟩, .inl ⟨h2, ((complete_eq_next ..).1 h).symm⟩⟩

end Sys2Proof.Machine
end

