-- ==== Sys2Proof/Laws/Engine.lean ====
section
/-! SUPPORT. What one pass of each command's loop can do, said once: the encoder's input byte (41_encoder.md R74, R75)
and the decoder's block (42_decoder.md R87 to R91). -/

namespace Sys2Proof.Machine

/-! ### ENCODE -/

@[simp] theorem encodeStart_port (m : Memory) : (encodeStart m).port = Port.start m := rfl
@[simp] theorem encodeStart_i (m : Memory) : (encodeStart m).i = 0 := rfl
@[simp] theorem encodeStart_o (m : Memory) : (encodeStart m).o = 1 := rfl
@[simp] theorem encodeStart_slot (m : Memory) : (encodeStart m).slot = 0 := rfl
@[simp] theorem encodeStart_code (m : Memory) : (encodeStart m).code = 1 := rfl

@[simp] theorem encodeScan_zero (inp out : Window) (v : EncodeVars) : encodeScan inp out 0 v = v := rfl
theorem encodeScan_succ (inp out : Window) (k : Nat) (v : EncodeVars) :
    encodeScan inp out (k + 1) v = encodeScan inp out k (encodeByte inp out v) := rfl

/-- The scan, its last byte taken off. -/
theorem encodeScan_succ_last (inp out : Window) (k : Nat) (v : EncodeVars) :
    encodeScan inp out (k + 1) v = encodeByte inp out (encodeScan inp out k v) := by
  induction k generalizing v with
  | zero => rfl
  | succ k ih => rw [encodeScan_succ, ih, encodeScan_succ]

/-- The three things an input byte can do: end a block, be copied, or be copied and force a split. -/
theorem encodeByte_cases (inp out : Window) (v : EncodeVars) :
    (v.port.byteAt (inp.base + v.i) = Config.special ∧
      encodeByte inp out v =
        { port := (v.port.afterRead (inp.base + v.i)).afterWrite (out.base + v.slot) (BitVec.ofNat 8 v.code),
          i := v.i + 1, o := v.o + 1, slot := v.o, code := 1 }) ∨
    (v.port.byteAt (inp.base + v.i) ≠ Config.special ∧ ¬ (v.code + 1 = Config.escape ∧ v.i + 1 < inp.len) ∧
      encodeByte inp out v =
        { port := (v.port.afterRead (inp.base + v.i)).afterWrite (out.base + v.o) (v.port.byteAt (inp.base + v.i)),
          i := v.i + 1, o := v.o + 1, slot := v.slot, code := v.code + 1 }) ∨
    (v.port.byteAt (inp.base + v.i) ≠ Config.special ∧ v.code + 1 = Config.escape ∧ v.i + 1 < inp.len ∧
      encodeByte inp out v =
        { port := ((v.port.afterRead (inp.base + v.i)).afterWrite (out.base + v.o)
            (v.port.byteAt (inp.base + v.i))).afterWrite (out.base + v.slot) (BitVec.ofNat 8 (v.code + 1)),
          i := v.i + 1, o := v.o + 2, slot := v.o + 1, code := 1 }) := by
  by_cases hb : v.port.byteAt (inp.base + v.i) = Config.special
  · exact .inl ⟨hb, by simp [encodeByte, encodeAdvance, encodeFinishBlock, encodeFetch, hb]⟩
  · by_cases hs : v.code + 1 = Config.escape ∧ v.i + 1 < inp.len
    · exact .inr (.inr ⟨hb, hs.1, hs.2, by
        simp [encodeByte, encodeAdvance, encodeForceSplit, encodeFinishBlock, encodeLiteral, encodeFetch, hb, hs]⟩)
    · exact .inr (.inl ⟨hb, hs, by
        simp [encodeByte, encodeAdvance, encodeForceSplit, encodeLiteral, encodeFetch, hb, hs]⟩)

/-- The input offset goes up by one. -/
@[simp] theorem encodeByte_i (inp out : Window) (v : EncodeVars) : (encodeByte inp out v).i = v.i + 1 := by
  rcases encodeByte_cases inp out v with ⟨-, e⟩ | ⟨-, -, e⟩ | ⟨-, -, -, e⟩ <;> rw [e]

@[simp] theorem encodeScan_i (inp out : Window) (k : Nat) (v : EncodeVars) : (encodeScan inp out k v).i = v.i + k := by
  induction k generalizing v with
  | zero => rfl
  | succ k ih =>
    rw [encodeScan_succ, ih, encodeByte_i]
    omega

@[simp] theorem encodeFinalCode_o (out : Window) (v : EncodeVars) : (encodeFinalCode out v).o = v.o := rfl
@[simp] theorem encodeFinalCode_port (out : Window) (v : EncodeVars) :
    (encodeFinalCode out v).port = v.port.afterWrite (out.base + v.slot) (BitVec.ofNat 8 v.code) := rfl

@[simp] theorem encodeDelimiter_false (out : Window) (v : EncodeVars) : encodeDelimiter out false v = v := rfl
theorem encodeDelimiter_true (out : Window) (v : EncodeVars) :
    encodeDelimiter out true v = { v with port := v.port.afterWrite (out.base + v.o) Config.special, o := v.o + 1 } := rfl

/-- RESULT of a successful scan: the delimiter adds its length (41_encoder.md R76). -/
@[simp] theorem encodeDelimiter_o (out : Window) (d : Bool) (v : EncodeVars) :
    (encodeDelimiter out d v).o = v.o + delimiterLength d := by
  cases d <;> rfl

/-! ### DECODE -/

@[simp] theorem decodeStart_port (m : Memory) : (decodeStart m).port = Port.start m := rfl
@[simp] theorem decodeStart_r (m : Memory) : (decodeStart m).r = 0 := rfl
@[simp] theorem decodeStart_w (m : Memory) : (decodeStart m).w = 0 := rfl

@[simp] theorem decodeReadCode_port (inp : Window) (v : DecodeVars) :
    (decodeReadCode inp v).port = v.port.afterRead (inp.base + v.r) := rfl
@[simp] theorem decodeReadCode_r (inp : Window) (v : DecodeVars) : (decodeReadCode inp v).r = v.r + 1 := rfl
@[simp] theorem decodeReadCode_w (inp : Window) (v : DecodeVars) : (decodeReadCode inp v).w = v.w := rfl
theorem decodeReadCode_code (inp : Window) (v : DecodeVars) :
    (decodeReadCode inp v).code = min (v.port.byteAt (inp.base + v.r)).toNat (inp.len - v.r) := rfl

/-- The clamp (42_decoder.md R87): the code never claims more bytes than are left. -/
theorem decodeReadCode_code_le (inp : Window) (v : DecodeVars) : (decodeReadCode inp v).code ≤ inp.len - v.r :=
  Nat.min_le_right _ _

@[simp] theorem decodeCopyByte_port (inp out : Window) (v : DecodeVars) :
    (decodeCopyByte inp out v).port =
      (v.port.afterRead (inp.base + v.r)).afterWrite (out.base + v.w) (v.port.byteAt (inp.base + v.r)) := rfl
@[simp] theorem decodeCopyByte_r (inp out : Window) (v : DecodeVars) : (decodeCopyByte inp out v).r = v.r + 1 := rfl
@[simp] theorem decodeCopyByte_w (inp out : Window) (v : DecodeVars) : (decodeCopyByte inp out v).w = v.w + 1 := rfl
@[simp] theorem decodeCopyByte_code (inp out : Window) (v : DecodeVars) : (decodeCopyByte inp out v).code = v.code := rfl

@[simp] theorem decodeCopy_zero (inp out : Window) (v : DecodeVars) : decodeCopy inp out 0 v = v := rfl
theorem decodeCopy_succ (inp out : Window) (k : Nat) (v : DecodeVars) :
    decodeCopy inp out (k + 1) v = decodeCopy inp out k (decodeCopyByte inp out v) := rfl

@[simp] theorem decodeCopy_r (inp out : Window) (k : Nat) (v : DecodeVars) : (decodeCopy inp out k v).r = v.r + k := by
  induction k generalizing v with
  | zero => rfl
  | succ k ih =>
    rw [decodeCopy_succ, ih, decodeCopyByte_r]
    omega

@[simp] theorem decodeCopy_w (inp out : Window) (k : Nat) (v : DecodeVars) : (decodeCopy inp out k v).w = v.w + k := by
  induction k generalizing v with
  | zero => rfl
  | succ k ih =>
    rw [decodeCopy_succ, ih, decodeCopyByte_w]
    omega

@[simp] theorem decodeCopy_code (inp out : Window) (k : Nat) (v : DecodeVars) :
    (decodeCopy inp out k v).code = v.code := by
  induction k generalizing v with
  | zero => rfl
  | succ k ih => rw [decodeCopy_succ, ih, decodeCopyByte_code]

/-- A block moves the read cursor past its code and its literals (30_encoding.md R60). -/
theorem decodeBlock_r (inp out : Window) (v : DecodeVars) :
    (decodeBlock inp out v).r = v.r + 1 + ((decodeReadCode inp v).code - 1) := by
  simp [decodeBlock]

theorem decodeBlock_w (inp out : Window) (v : DecodeVars) :
    (decodeBlock inp out v).w = v.w + ((decodeReadCode inp v).code - 1) := by
  simp [decodeBlock]

theorem decodeBlock_code (inp out : Window) (v : DecodeVars) :
    (decodeBlock inp out v).code = (decodeReadCode inp v).code := by
  simp [decodeBlock]

/-- A block that begins inside the input ends at or before the input's end (42_decoder.md R87, R90). -/
theorem decodeBlock_r_le (inp out : Window) (v : DecodeVars) (h : v.r < inp.len) :
    v.r < (decodeBlock inp out v).r ∧ (decodeBlock inp out v).r ≤ inp.len := by
  have := decodeReadCode_code_le inp v
  rw [decodeBlock_r]
  omega

@[simp] theorem decodePeek_port (inp : Window) (v : DecodeVars) :
    (decodePeek inp v).port = v.port.afterRead (inp.base + v.r) := rfl
@[simp] theorem decodePeek_r (inp : Window) (v : DecodeVars) : (decodePeek inp v).r = v.r := rfl
@[simp] theorem decodePeek_w (inp : Window) (v : DecodeVars) : (decodePeek inp v).w = v.w := rfl
@[simp] theorem decodePeek_code (inp : Window) (v : DecodeVars) : (decodePeek inp v).code = v.code := rfl

/-- The implied zero is written after every block but an escape block (42_decoder.md R91). -/
theorem decodeImpliedZero_cases (out : Window) (v : DecodeVars) :
    (v.code = Config.escape ∧ decodeImpliedZero out v = v) ∨
      (v.code ≠ Config.escape ∧
        decodeImpliedZero out v = { v with port := v.port.afterWrite (out.base + v.w) Config.special, w := v.w + 1 }) := by
  by_cases h : v.code = Config.escape
  · exact .inl ⟨h, by simp [decodeImpliedZero, h]⟩
  · exact .inr ⟨h, by simp [decodeImpliedZero, h]⟩

@[simp] theorem decodeImpliedZero_r (out : Window) (v : DecodeVars) : (decodeImpliedZero out v).r = v.r := by
  rcases decodeImpliedZero_cases out v with ⟨-, e⟩ | ⟨-, e⟩ <;> rw [e]

@[simp] theorem decodeLoop_zero (inp out : Window) (v : DecodeVars) : decodeLoop inp out 0 v = v := rfl

/-- The three ways an iteration can end (42_decoder.md R90, R91): at the input's end, at a delimiter, or with another
iteration. -/
theorem decodeLoop_cases (inp out : Window) (fuel : Nat) (v : DecodeVars) :
    (inp.len ≤ (decodeBlock inp out v).r ∧ decodeLoop inp out (fuel + 1) v = decodeBlock inp out v) ∨
    ((decodeBlock inp out v).r < inp.len ∧
      (decodeBlock inp out v).port.byteAt (inp.base + (decodeBlock inp out v).r) = Config.special ∧
      decodeLoop inp out (fuel + 1) v = decodePeek inp (decodeBlock inp out v)) ∨
    ((decodeBlock inp out v).r < inp.len ∧
      (decodeBlock inp out v).port.byteAt (inp.base + (decodeBlock inp out v).r) ≠ Config.special ∧
      decodeLoop inp out (fuel + 1) v =
        decodeLoop inp out fuel (decodeImpliedZero out (decodePeek inp (decodeBlock inp out v)))) := by
  by_cases h : inp.len ≤ (decodeBlock inp out v).r
  · exact .inl ⟨h, by simp [decodeLoop, h]⟩
  · by_cases hb : (decodeBlock inp out v).port.byteAt (inp.base + (decodeBlock inp out v).r) = Config.special
    · exact .inr (.inl ⟨not_le.1 h, hb, by simp [decodeLoop, h, hb]⟩)
    · exact .inr (.inr ⟨not_le.1 h, hb, by simp [decodeLoop, h, hb]⟩)

end Sys2Proof.Machine
end

