-- ==== Sys2Proof/Laws/PerInstr.lean ====
section
/-! SUPPORT. Facts about each instruction as syntax, one lemma per constructor (LAWS.json, per_instruction). -/

namespace Sys2Proof.Laws

/-- The word of an instruction has the instruction's fields at the places of 30_encoding.md R50, and they are those of
a command (R52, R53). -/
def WordFields.Statement (i : Instr) : Prop := splitFields (encode i) = i.fields ∧ i.wf = true

theorem WordFields.bufsize (withDelimiter : Bool) : WordFields.Statement (.bufsize withDelimiter) := by
  cases withDelimiter <;> exact ⟨by decide, by decide⟩

theorem WordFields.encode (withDelimiter : Bool) : WordFields.Statement (.encode withDelimiter) := by
  cases withDelimiter <;> exact ⟨by decide, by decide⟩

theorem WordFields.decode : WordFields.Statement .decode := ⟨by decide, by decide⟩

theorem WordFields.decip : WordFields.Statement .decip := ⟨by decide, by decide⟩

end Sys2Proof.Laws
end

