-- ==== Sys2Proof/Laws/Step.lean ====
section
/-! SUPPORT. What a step can do, said once: it answers the record, waits, or takes the host's next action. -/

namespace Sys2Proof.Machine

theorem step_of_fault {s : State} {f : Fault} (h : s.record = some (.fault f)) : step s = .fault f := by
  simp [step, h]

theorem step_of_refused {s : State} {r : Refusal} (h : s.record = some (.refused r)) : step s = .refused r := by
  simp [step, h]

theorem step_idle {s : State} (h : s.record = none) (ha : s.hostActions = []) : step s = .next s := by
  simp [step, h, ha]

/-- A step with an action left takes it. -/
theorem step_action {s : State} {a : HostAction} {rest : List HostAction} (h : s.record = none)
    (ha : s.hostActions = a :: rest) : step s = hostAct { s with hostActions := rest } a := by
  simp [step, h, ha]

/-- What a step has done when it answers a next state. -/
theorem step_next {s t : State} (h : step s = .next t) :
    s.record = none ∧
      ((s.hostActions = [] ∧ t = s) ∨
        ∃ a rest, s.hostActions = a :: rest ∧ hostAct { s with hostActions := rest } a = .next t) := by
  cases hr : s.record with
  | some x =>
    cases x with
    | fault f =>
      rw [step_of_fault hr] at h
      cases h
    | refused r =>
      rw [step_of_refused hr] at h
      cases h
  | none =>
    refine ⟨rfl, ?_⟩
    cases ha : s.hostActions with
    | nil =>
      rw [step_idle hr ha] at h
      cases h
      exact .inl ⟨rfl, rfl⟩
    | cons a rest =>
      rw [step_action hr ha] at h
      exact .inr ⟨a, rest, rfl, by simpa only [hr] using h⟩

/-- A host action answers a next state exactly when the spec gives the host that action
(70_reset_and_hazards.md R125, 20_memory.md R32). -/
theorem hostAct_next_iff_wf (s : State) (a : HostAction) : (∃ t, hostAct s a = .next t) ↔ a.wf s.cfg = true := by
  cases a <;> simp only [hostAct, HostAction.wf, decide_eq_true_eq] <;> first | (split_ifs <;> simp_all) | simp

/-- A host write of CMD latches the word, runs its command, and records what is not ok. -/
theorem hostAct_writeCmd (s : State) (v : CmdWord) : hostAct s (.writeCmd v) = .next (issueCommand v s) := rfl

theorem issueCommand_command {v : CmdWord} {i : Instr} (s : State) (h : decode v = .command i) :
    issueCommand v s = settle (latchCmd v s) (exec i (latchCmd v s)) := by
  simp [issueCommand, runWord, h]

theorem issueCommand_reserved {v : CmdWord} {why : Reserved} (s : State) (h : decode v = .reserved why) :
    issueCommand v s = recordStop (latchCmd v s) (.refused .reservedCmd) := by
  simp [issueCommand, runWord, h]

/-- A host write of an ARG value below 2^ADDR_BITS. -/
theorem hostAct_writeArg {s : State} {k : ArgIndex} {v : Nat} (h : v < s.cfg.memSize) :
    hostAct s (.writeArg k v) = .next (writeArg s k v) := by
  simp [hostAct, h]

/-- A run of no step. -/
theorem run_zero (s : State) : Host.Core.run Sys2Proof.core 0 s = .next s := rfl

/-- A run whose first step answers `t` goes on from `t`. -/
theorem run_succ_of_step {s t : State} (k : Nat) (h : step s = .next t) :
    Host.Core.run Sys2Proof.core (k + 1) s = Host.Core.run Sys2Proof.core k t := by
  simp [Host.Core.run, Sys2Proof.core, h]

/-- The word presented to a machine is the one its very next step performs, with the command's operands present. -/
theorem step_withFetchWord (s : State) (nbits w : Nat) :
    step (s.withFetchWord nbits w) =
      .next (issueCommand (BitVec.ofNat 8 (w % 2 ^ nbits))
        { fillOperands (BitVec.ofNat 8 (w % 2 ^ nbits)) s with hostActions := s.hostActions, record := none }) := rfl

end Sys2Proof.Machine
end

