-- ==== Sys2Proof/Tests/Slice0.lean ====
section
/-! SUPPORT. Tests: the static checks refuse ill-formed terms, words written out from 30_encoding.md decode to their
instructions, single steps on the vectors of 95_test_vectors.md (each test names its vector), and a witness for the
hypotheses of every statement that has some, clause by clause. -/

namespace Sys2Proof.Tests

open Sys2Proof Sys2Proof.Machine

/-! ### Ill-formed terms are refused -/

theorem test_wf_refuses_reserved_field : CmdFields.wf ⟨1, false, 0⟩ = false := by decide
theorem test_wf_refuses_delimiter_on_decode : CmdFields.wf ⟨0, true, 2⟩ = false := by decide
theorem test_wf_refuses_delimiter_on_decip : CmdFields.wf ⟨0, true, 3⟩ = false := by decide
theorem test_wf_refuses_wide_arg : HostAction.wf Config.adopted (.writeArg .arg2 65536) = false := by decide
theorem test_wf_refuses_write_above_mem : HostAction.wf Config.adopted (.writeMem 65536 1) = false := by decide
theorem test_wf_refuses_read_above_mem : HostAction.wf Config.adopted (.readMem 65536) = false := by decide
theorem test_wf_refuses_wide_size : Statement.wf Config.adopted (.bufsize true 65536) = false := by decide
theorem test_wf_refuses_wide_encode_operand : Statement.wf Config.adopted (.encode false 0 1 2 65536) = false := by decide
theorem test_wf_refuses_wide_decode_operand : Statement.wf Config.adopted (.decode 0 65536 2 3) = false := by decide
theorem test_wf_refuses_wide_decip_operand : Statement.wf Config.adopted (.decip 65536 3) = false := by decide

/-! ### Decoding, from the bits of 30_encoding.md R50 and R54: RSV D OP -/

theorem test_decode_bufsize : decode 0b00000_0_00#8 = .command (.bufsize false) := by decide
theorem test_decode_bufsize_d : decode 0b00000_1_00#8 = .command (.bufsize true) := by decide
theorem test_decode_encode : decode 0b00000_0_01#8 = .command (.encode false) := by decide
theorem test_decode_encode_d : decode 0b00000_1_01#8 = .command (.encode true) := by decide
theorem test_decode_decode : decode 0b00000_0_10#8 = .command .decode := by decide
theorem test_decode_decip : decode 0b00000_0_11#8 = .command .decip := by decide
/-- V67's four reserved words. -/
theorem test_decode_reserved : (decode 0x06#8).toOption = none ∧ (decode 0x07#8).toOption = none ∧
    (decode 0x08#8).toOption = none ∧ (decode 0xFF#8).toOption = none := by decide
theorem test_decodeTableWord : decodeTableWord 8 5 = some (.encode true) ∧ decodeTableWord 8 6 = none := by decide

/-! ### Single steps -/

/-- A machine with MEM holding `bytes` from `a` on and these ARG values. -/
def machine (a : Nat) (bytes : List Byte) (a0 a1 a2 a3 : Nat) : State :=
  { State.resetWith Config.adopted (Memory.writeBytes [] a bytes) with
    arg0 := .value a0, arg1 := .value a1, arg2 := .value a2, arg3 := .value a3 }

/-- RESULT and the bytes of a window, after a command that ends ok. -/
def after (w : Window) (x : Result) : Option (Reg Nat × List Byte) :=
  (nextState x).map fun t => (t.result, w.bytes t.mem)

/-- V15. -/
theorem test_bufsize_wide : after ⟨0, 0⟩ (exec (.bufsize true) (machine 0 [] 65535 0 0 0)) = some (.value 65795, []) := by
  decide
/-- V11. -/
theorem test_bufsize_254 : after ⟨0, 0⟩ (exec (.bufsize false) (machine 0 [] 254 0 0 0)) = some (.value 256, []) := by
  decide
/-- V6 and V26. -/
theorem test_encode_delimiter :
    after ⟨0x2000, 15⟩ (exec (.encode true)
      (machine 0x100 [0x45, 0x00, 0x00, 0x2C, 0x4C, 0x79, 0x00, 0x00, 0x40, 0x06, 0x4F, 0x37] 0x100 12 0x2000 14)) =
      some (.value 14, [0x02, 0x45, 0x01, 0x04, 0x2C, 0x4C, 0x79, 0x01, 0x05, 0x40, 0x06, 0x4F, 0x37, 0x00, 0x00]) := by
  decide
/-- 41_encoder.md R75 at the 254th literal: a split when more input follows, none when it is the last byte. -/
theorem test_encode_forced_split :
    (encodeByte ⟨0, 255⟩ ⟨1000, 257⟩ { port := Port.start [(253, 7)], i := 253, o := 254, slot := 0, code := 254 }) =
      { port := ⟨[(253, 7), (1000, 0xFF), (1254, 7)], [.write 1000 0xFF, .write 1254 7, .read 253]⟩,
        i := 254, o := 256, slot := 255, code := 1 } ∧
    (encodeByte ⟨0, 254⟩ ⟨1000, 257⟩
      { port := Port.start [(253, 7)], i := 253, o := 254, slot := 0, code := 254 }).code = 255 := by
  decide
/-- V56: an output window just below the stream. -/
theorem test_decode_overlap_below :
    after ⟨0x000E, 8⟩ (exec .decode (machine 0x10 [0x03, 0x11, 0x22, 0x02, 0x33, 0x00] 0x10 6 0x0E 5)) =
      some (.value 4, [0x11, 0x22, 0x00, 0x33, 0x22, 0x02, 0x33, 0x00]) := by
  decide
/-- V46: the code 0 copies nothing, and the last code is clamped. -/
theorem test_decode_code_zero :
    after ⟨0x2000, 2⟩ (exec .decode (machine 0x100 [0x00, 0x11] 0x100 2 0x2000 1)) = some (.value 1, [0x00, 0x00]) := by
  decide
/-- V59. -/
theorem test_decip_leaves_tail :
    after ⟨0x100, 6⟩ (exec .decip (machine 0x100 [0x03, 0x11, 0x22, 0x02, 0x33, 0x00] 0x100 6 0 0)) =
      some (.value 4, [0x11, 0x22, 0x00, 0x33, 0x33, 0x00]) := by
  decide
/-- V65: a clamped block. -/
theorem test_decip_clamped :
    after ⟨0x100, 3⟩ (exec .decip (machine 0x100 [0x05, 0x11, 0x22] 0x100 3 0 0)) =
      some (.value 2, [0x11, 0x22, 0x22]) := by
  decide
/-- V32 and V33. -/
theorem test_encode_refusals :
    stopReason (exec (.encode false) (machine 0 [] 0 4 2 8)) = some (.refused .encodeOverlap) ∧
    stopReason (exec (.encode false) (machine 0 [] 0xFFFE 4 0 8)) = some (.refused .windowRange) := by
  decide
/-- V57 and V58. -/
theorem test_decode_refusals :
    stopReason (exec .decode (machine 0 [] 0x10 6 0x12 5)) = some (.refused .decodeOverlap) ∧
    stopReason (exec .decode (machine 0 [] 0 4 0xFFFE 3)) = some (.refused .windowRange) := by
  decide
/-- V69: the word is decoded before any ARG register is read. -/
theorem test_step_reserved_first :
    (nextState (step { State.reset with hostActions := [.writeCmd 0x07] })).map (fun t => (t.cmd, t.record)) =
      some (.value 0x07, some (.refused .reservedCmd)) := by
  decide
/-- V68 and P6.1: the fault is recorded, CMD holds the word, RESULT holds no value. -/
theorem test_step_unwritten_operand :
    (nextState (step { State.reset with hostActions := [.writeCmd 0x00] })).map (fun t => (t.cmd, t.result, t.record)) =
      some (.value 0x00, .unwritten, some (.fault .unwrittenReg)) := by
  decide
/-- V71. -/
theorem test_step_read_unwritten :
    (nextState (step { State.reset with hostActions := [.readReg .result] })).map (fun t => t.record) =
      some (some (.fault .unwrittenReg)) := by
  decide
/-- V70: DECIP reads neither ARG2 nor ARG3. -/
theorem test_step_decip_two_operands :
    (nextState (step { State.resetWith Config.adopted [(0, 1)] with
        arg0 := .value 0, arg1 := .value 2, hostActions := [.writeCmd 0x03] })).map (fun t => (t.result, t.record)) =
      some (.value 0, none) := by
  decide
/-- Each command runs as the first instruction after reset, its operand registers holding 0. -/
theorem test_withFetchWord_runs :
    ([0, 4, 1, 5, 2, 3].map fun w => (nextState (step (State.reset.withFetchWord 8 w))).map fun t => t.result) =
      [some (.value 1), some (.value 2), some (.value 0), some (.value 0), some (.value 0), some (.value 0)] := by
  decide

/-! ### Witnesses: command words -/

theorem witness_DecodeOfEncodeIsTheInstruction : Instr.wf (.encode true) = true ∧ Instr.wf .decip = true := by decide
theorem witness_EncodeOfDecodeIsTheWord : decode 0x05#8 = .command (.encode true) := by decide
theorem witness_ExactlySixWordsNameCommands :
    (0x06#8).toNat = 6 ∧ (0x07#8).toNat = 7 ∧ 8 ≤ (0x08#8).toNat ∧ 8 ≤ (0xFF#8).toNat := by decide
theorem witness_NonzeroReservedFieldIsReserved :
    BitVec.extractLsb' 3 5 (0x08#8) ≠ 0 ∧ BitVec.extractLsb' 3 5 (0xFF#8) ≠ 0 := by decide
theorem witness_OpAndDelimiterFieldsSelectTheCommand :
    (∀ v ∈ [0x00#8, 0x04#8], v.extractLsb' 3 5 = 0 ∧ v.extractLsb' 0 2 = 0) ∧
    (∀ v ∈ [0x01#8, 0x05#8], v.extractLsb' 3 5 = 0 ∧ v.extractLsb' 0 2 = 1) ∧
    (BitVec.extractLsb' 3 5 (0x02#8) = 0 ∧ BitVec.extractLsb' 0 2 (0x02#8) = 2 ∧ BitVec.getLsbD (0x02#8) 2 = false) ∧
    (BitVec.extractLsb' 3 5 (0x03#8) = 0 ∧ BitVec.extractLsb' 0 2 (0x03#8) = 3 ∧ BitVec.getLsbD (0x03#8) 2 = false) ∧
    (BitVec.extractLsb' 3 5 (0x06#8) = 0 ∧ BitVec.extractLsb' 0 2 (0x06#8) = 2 ∧ BitVec.getLsbD (0x06#8) 2 = true) ∧
    (BitVec.extractLsb' 3 5 (0x07#8) = 0 ∧ BitVec.extractLsb' 0 2 (0x07#8) = 3 ∧ BitVec.getLsbD (0x07#8) 2 = true) := by
  decide

/-! ### Witnesses: steps -/

/-- A machine whose host takes one action and then has none left. -/
def about (a : HostAction) (s : State) : State := { s with hostActions := [a] }

/-- The six example machines of the witnesses: an ENCODE with the smallest sufficient capacity for d = 1, a DECODE into
a window just below its input, a DECIP, and three that stop. -/
def encoding : State := machine 0x100 [0x11, 0x22, 0x00, 0x33] 0x100 4 0x200 6
def decoding : State := machine 0x10 [0x03, 0x11, 0x22, 0x02, 0x33, 0x00] 0x10 6 0x0E 5
def inPlace : State := machine 0x100 [0x03, 0x11, 0x22, 0x02, 0x33, 0x00] 0x100 6 0 0
def overlapping : State := machine 0 [] 0 4 2 8
def outOfRange : State := machine 0 [] 0xFFFE 4 0 8

theorem witness_StepRunsTheDecodedCommand :
    (about (.writeCmd 0x05) encoding).record = none ∧ decode 0x05#8 = .command (.encode true) ∧
    (nextState (exec (.encode true) { encoding with cmd := .value 0x05 })).isSome = true ∧
    stopReason (exec (.encode true) { State.reset with cmd := .value 0x05 }) = some (.fault .unwrittenReg) ∧
    stopReason (exec (.encode true) { overlapping with cmd := .value 0x05 }) = some (.refused .encodeOverlap) := by
  decide
theorem witness_ReservedWordIsRefusedAndRecorded :
    (about (.writeCmd 0x06) State.reset).record = none ∧ decode 0x06#8 = .reserved .delimiterOnDecode ∧
    decode 0xFF#8 = .reserved .reservedField := by
  decide
theorem witness_RecordedStopIsPermanent :
    (recordStop State.reset (.fault .unwrittenReg)).record = some (.fault .unwrittenReg) ∧
    (recordStop State.reset (.refused .windowRange)).record = some (.refused .windowRange) := by
  decide
theorem witness_IdleBlockWaits : State.reset.record = none ∧ State.reset.hostActions = [] := by decide
theorem witness_HostWriteStoresTheArg :
    (about (.writeArg .arg3 65535) State.reset).record = none ∧ 65535 < State.reset.cfg.memSize := by decide
theorem witness_HostWriteSetsTheByte :
    (about (.writeMem 65535 0x7F) State.reset).record = none ∧ 65535 < State.reset.cfg.memSize := by decide
theorem witness_HostWriteOfResultHasNoEffect : (about (.writeResult 9) State.reset).record = none := by decide
theorem witness_HostReadReturnsTheRegisterOrFaults :
    (about (.readReg (.arg .arg1)) encoding).record = none ∧
    readReg (about (.readReg (.arg .arg1)) encoding) (.arg .arg1) = .value 4 ∧
    readReg (about (.readReg .result) encoding) .result = .unwritten := by
  decide
theorem witness_HostReadReturnsTheByte :
    (about (.readMem 65535) encoding).record = none ∧ 65535 < encoding.cfg.memSize := by decide
theorem witness_HostMoveOutsideTheInterfaceStops :
    (about (.writeMem 65536 1) State.reset).record = none ∧ State.reset.cfg.memSize ≤ 65536 := by decide
theorem witness_ResetClearsRegistersAndKeepsMemory : (about .reset encoding).record = none := by decide
/-- The machine of the example statements: reset, one statement's actions to take, MEM holding the stream 02 41. -/
def beginning (x : Statement) : State :=
  { State.resetWith Config.adopted [(0, 0x02), (1, 0x41)] with hostActions := statementActions x }
/-- BUFSIZE.D and the three others, each with operands that complete and with operands that are refused; the states
exec is asked about hold the operands and the word as the statement's clauses write them. -/
theorem witness_StatementWritesOperandsThenIssues :
    ((beginning (.bufsize true 65535)).record = none ∧ 65535 < Config.adopted.memSize ∧
      (beginning (.bufsize true 65535)).hostActions = statementActions (.bufsize true 65535) ++ []) ∧
    (nextState (exec (.encode true) { State.resetWith Config.adopted [(0, 0x02), (1, 0x41)] with
      arg0 := .value 0, arg1 := .value 2, arg2 := .value 0x200, arg3 := .value 65000, cmd := .value 0x05 })).isSome = true ∧
    stopReason (exec (.encode false) { State.resetWith Config.adopted [(0, 0x02), (1, 0x41)] with
      arg0 := .value 0, arg1 := .value 4, arg2 := .value 2, arg3 := .value 8, cmd := .value 0x01 }) =
        some (.refused .encodeOverlap) ∧
    (nextState (exec .decode { State.resetWith Config.adopted [(0, 0x02), (1, 0x41)] with
      arg0 := .value 0, arg1 := .value 2, arg2 := .value 0x200, arg3 := .value 1, cmd := .value 0x02 })).isSome = true ∧
    stopReason (exec .decode { State.resetWith Config.adopted [(0, 0x02), (1, 0x41)] with
      arg0 := .value 0, arg1 := .value 4, arg2 := .value 65535, arg3 := .value 2, cmd := .value 0x02 }) =
        some (.refused .windowRange) ∧
    (nextState (exec .decip { State.resetWith Config.adopted [(0, 0x02), (1, 0x41)] with
      arg0 := .value 0, arg1 := .value 2, cmd := .value 0x03 })).isSome = true ∧
    stopReason (exec .decip { State.resetWith Config.adopted [(0, 0x02), (1, 0x41)] with
      arg0 := .value 65535, arg1 := .value 2, cmd := .value 0x03 }) = some (.refused .windowRange) := by
  decide
/-- P1's second line: ENCODE.D in five steps from reset, its operands in their registers and its word in CMD. -/
theorem test_statement_encode_d :
    (match Host.Core.run Sys2Proof.core 5
        { State.resetWith Config.adopted (Memory.writeBytes [] 0x0100 [0x11, 0x22, 0x00, 0x33]) with
          hostActions := statementActions (.encode true 0x0100 4 0x0200 6) } with
      | .next t => some (t.cmd, [t.arg0, t.arg1, t.arg2, t.arg3, t.result], Window.bytes ⟨0x0200, 6⟩ t.mem)
      | .fault _ => none
      | .refused _ => none) =
      some (.value 0x05, [.value 0x0100, .value 4, .value 0x0200, .value 6, .value 6],
        [0x03, 0x11, 0x22, 0x02, 0x33, 0x00]) := by
  decide
theorem witness_EveryHostActionCompletesInOneStep :
    (about (.writeCmd 0xFF) encoding).record = none ∧ HostAction.wf encoding.cfg (.writeCmd 0xFF) = true ∧
    HostAction.wf encoding.cfg (.writeMem 65535 0) = true := by
  decide

/-! ### Witnesses: invariants and whole-machine rules -/

theorem witness_StepKeepsTheStateWellFormed :
    (about (.writeCmd 0x05) encoding).wf ∧ (nextState (step (about (.writeCmd 0x05) encoding))).isSome = true := by
  decide
theorem witness_ResetStateIsWellFormed :
    Memory.wf [(0, 1), (65535, 2)] ∧ ∀ e ∈ [((0 : Nat), (1 : Byte)), (65535, 2)], e.1 < Config.adopted.memSize := by
  decide
theorem witness_OkWritesResultAndStopWritesNothing :
    (nextState (exec .decode decoding)).isSome = true ∧
    stopReason (exec .decode outOfRange) = some (.refused .windowRange) := by
  decide
theorem witness_OnlyCommandsAndResetChangeResult :
    (nextState (step (about (.writeCmd 0x00) encoding))).map (fun t => t.result) = some (.value 258) ∧
    encoding.result = .unwritten ∧
    (nextState (step (about .reset { encoding with result := .value 3 }))).map (fun t => t.result) = some .unwritten := by
  decide
theorem witness_OnlyHostWritesAndCommandsChangeMemory :
    (nextState (step (about (.writeMem 7 9) encoding))).map (fun t => Memory.read t.mem 7) = some 9 ∧
    Memory.read encoding.mem 7 = 0 ∧
    (nextState (step (about (.writeCmd 0x01) encoding))).map (fun t => Memory.read t.mem 0x200) = some 3 ∧
    Memory.read encoding.mem 0x200 = 0 := by
  decide
theorem witness_CommandsSeeOnlyOperandsAndInput :
    SameInput encoding { encoding with mem := Memory.write encoding.mem 0x204 0x55, result := .value 7 } ∧
    (nextState (exec (.encode false) encoding)).isSome = true := by
  refine ⟨?_, by decide⟩
  intro base len h0 h1 k hk
  obtain rfl : 0x100 = base := by simpa [encoding, machine] using h0
  obtain rfl : 4 = len := by simpa [encoding, machine] using h1
  exact Memory.read_write_other encoding.mem 0x204 (0x100 + k) 0x55 (by omega)

/-! ### Witnesses: the commands -/

theorem witness_BufsizeReturnsTheSizeFormula : (machine 0 [] 65535 0 0 0).arg0 = .value 65535 := by decide
theorem witness_BufsizeResultFitsResult :
    (machine 0 [] 65535 0 0 0).arg0 = .value 65535 ∧ 65535 ≤ 2 ^ (machine 0 [] 65535 0 0 0).cfg.addrBits - 1 := by
  decide

/-- The admitted ENCODE of the witnesses, its capacity equal to BUFSIZE(4, 1). -/
theorem encoding_admitted : EncodeAdmitted encoding ⟨0x100, 4⟩ ⟨0x200, 6⟩ ∧ bufferSize 4 true ≤ 6 := by decide

theorem witness_EncodeCompletesWhenAdmitted : EncodeAdmitted encoding ⟨0x100, 4⟩ ⟨0x200, 6⟩ := encoding_admitted.1
theorem witness_EncodeRefusesRangeThenOverlap :
    (HoldsTwoWindows outOfRange ⟨0xFFFE, 4⟩ ⟨0, 8⟩ ∧
      ¬ (Window.Fits ⟨0xFFFE, 4⟩ outOfRange.cfg ∧ Window.Fits ⟨0, 8⟩ outOfRange.cfg)) ∧
    (HoldsTwoWindows overlapping ⟨0, 4⟩ ⟨2, 8⟩ ∧ Window.Fits ⟨0, 4⟩ overlapping.cfg ∧
      Window.Fits ⟨2, 8⟩ overlapping.cfg ∧ Window.Shares ⟨0, 4⟩ ⟨2, 8⟩) := by
  decide
theorem witness_EncodeShortCapacityReturnsZero :
    EncodeAdmitted (machine 0x100 [1, 2, 3, 4] 0x100 4 0x200 5) ⟨0x100, 4⟩ ⟨0x200, 5⟩ ∧
    5 < 4 + 4 / 254 + 1 + (if true then 1 else 0) := by
  decide
theorem witness_EncodeZeroMeansShortCapacity :
    (after ⟨0, 0⟩ (exec (.encode true) encoding) = some (.value 6, []) ∧ EncodeAdmitted encoding ⟨0x100, 4⟩ ⟨0x200, 6⟩) ∧
    (after ⟨0, 0⟩ (exec (.encode true) (machine 0x100 [1, 2, 3, 4] 0x100 4 0x200 5)) = some (.value 0, []) ∧
      EncodeAdmitted (machine 0x100 [1, 2, 3, 4] 0x100 4 0x200 5) ⟨0x100, 4⟩ ⟨0x200, 5⟩) := by
  decide
theorem witness_EncodeResultIsWithinItsBounds :
    EncodeAdmitted encoding ⟨0x100, 4⟩ ⟨0x200, 6⟩ ∧ bufferSize 4 true ≤ 6 ∧
    (nextState (exec (.encode true) encoding)).isSome = true := by
  decide
/-- An input with no 0x00, and the empty input. -/
theorem witness_EncodeLengthIsLongestWithoutZeros :
    (EncodeAdmitted (machine 0x100 [1, 2, 3, 4] 0x100 4 0x200 5) ⟨0x100, 4⟩ ⟨0x200, 5⟩ ∧ bufferSize 4 false ≤ 5 ∧
      (∀ b ∈ Window.bytes ⟨0x100, 4⟩ (machine 0x100 [1, 2, 3, 4] 0x100 4 0x200 5).mem, b ≠ 0x00#8) ∧
      after ⟨0, 0⟩ (exec (.encode false) (machine 0x100 [1, 2, 3, 4] 0x100 4 0x200 5)) = some (.value 5, [])) ∧
    (EncodeAdmitted (machine 0 [] 0xFFFF 0 0x200 1) ⟨0xFFFF, 0⟩ ⟨0x200, 1⟩ ∧ bufferSize 0 false ≤ 1 ∧
      after ⟨0, 0⟩ (exec (.encode false) (machine 0 [] 0xFFFF 0 0x200 1)) = some (.value 1, [])) ∧
    ((4 : Nat) % 254 ≠ 0 ∧ 1 ≤ 254 ∧ 254 % 254 = 0) := by
  decide
/-- The lengths at which the multiples-of-254 clauses of that statement speak: an admitted input of 254 bytes. -/
theorem witness_EncodeLengthIsLongestWithoutZeros_254 :
    EncodeAdmitted (machine 0 [] 0 254 0x200 257) ⟨0, 254⟩ ⟨0x200, 257⟩ ∧ bufferSize 254 true ≤ 257 ∧
    (nextState (exec (.encode true) (machine 0 [] 0 254 0x200 257))).isSome = true := by
  decide +kernel
theorem witness_EncodeWritesTheBlockLevelEncoding :
    EncodeAdmitted encoding ⟨0x100, 4⟩ ⟨0x200, 6⟩ ∧ bufferSize 4 true ≤ 6 := encoding_admitted
theorem witness_EncodeFrame :
    EncodeAdmitted encoding ⟨0x100, 4⟩ ⟨0x200, 6⟩ ∧ (nextState (exec (.encode false) encoding)).isSome = true := by
  decide
theorem witness_EncodeVariablesStayInRange : 4 ≤ (⟨0x100, 4⟩ : Window).len ∧ 0 < (⟨0x100, 4⟩ : Window).len := by decide
theorem witness_EncodeOutputHasNoZeroButTheDelimiter :
    EncodeAdmitted encoding ⟨0x100, 4⟩ ⟨0x200, 6⟩ ∧ bufferSize 4 true ≤ 6 ∧
    (nextState (exec (.encode true) encoding)).isSome = true := by
  decide

/-- The admitted DECODE of the witnesses, its output window overlapping its input from below (V56). -/
theorem decoding_admitted : DecodeAdmitted decoding ⟨0x10, 6⟩ ⟨0x0E, 5⟩ ∧ DecodeSized 6 5 := by decide

theorem witness_DecodeCompletesWhenAdmitted : DecodeAdmitted decoding ⟨0x10, 6⟩ ⟨0x0E, 5⟩ := decoding_admitted.1
theorem witness_DecodeRefusesRangeThenOverlapAbove :
    (HoldsTwoWindows outOfRange ⟨0xFFFE, 4⟩ ⟨0, 8⟩ ∧
      ¬ (Window.Fits ⟨0xFFFE, 4⟩ outOfRange.cfg ∧ Window.Fits ⟨0, 8⟩ outOfRange.cfg)) ∧
    (HoldsTwoWindows overlapping ⟨0, 4⟩ ⟨2, 8⟩ ∧ Window.Fits ⟨0, 4⟩ overlapping.cfg ∧
      Window.Fits ⟨2, 8⟩ overlapping.cfg ∧ Window.Shares ⟨0, 4⟩ ⟨2, 8⟩ ∧ (0 : Nat) < 2) := by
  decide
/-- Too short an input, no output, one byte too little, and just enough. -/
theorem witness_DecodeFailsExactlyOnShortWindows :
    DecodeAdmitted (machine 0 [1] 0 1 0x200 5) ⟨0, 1⟩ ⟨0x200, 5⟩ ∧
    DecodeAdmitted (machine 0 [1, 1] 0 2 0x200 0) ⟨0, 2⟩ ⟨0x200, 0⟩ ∧
    DecodeAdmitted (machine 0 [3, 1, 1, 0] 0 4 0x200 2) ⟨0, 4⟩ ⟨0x200, 2⟩ ∧
    (DecodeAdmitted decoding ⟨0x10, 6⟩ ⟨0x0E, 5⟩ ∧ ¬ (6 < 2 ∨ 5 = 0 ∨ 5 < 6 - 1)) := by
  decide
theorem witness_DecodeFrame :
    DecodeAdmitted decoding ⟨0x10, 6⟩ ⟨0x0E, 5⟩ ∧ (nextState (exec .decode decoding)).isSome = true := by decide
/-- The first write of a run over the stream 02 41. -/
theorem witness_DecodeWritesStayBehindReads :
    (decodeRun ⟨0, 2⟩ ⟨8, 1⟩ [(0, 0x02), (1, 0x41)]).port.accesses.reverse =
      [.read 0, .read 1] ++ .write 8 0x41 :: [] := by
  decide
theorem witness_DecodeReadsStayInsideInput :
    1 ∈ readAddrs (decodeRun ⟨0, 2⟩ ⟨8, 1⟩ [(0, 0x02), (1, 0x41)]).port.accesses := by decide
theorem witness_DecodeLoopEndsWithinInputLength :
    1 ≤ (⟨0, 1⟩ : Window).len ∧ (⟨0, 1⟩ : Window).len ≤ 1 := by decide
theorem witness_DecodeWritesWhatTheStreamDetermines :
    DecodeAdmitted decoding ⟨0x10, 6⟩ ⟨0x0E, 5⟩ ∧ DecodeSized 6 5 := decoding_admitted
/-- A stream that ends at its window's end, and one that ends at a delimiter with a byte after it. -/
theorem witness_DecodeOfBlocksIsTheirPayload :
    (DecodeAdmitted (machine 0 [2, 0x41, 1] 0 3 0x200 2) ⟨0, 3⟩ ⟨0x200, 2⟩ ∧ DecodeSized 3 2 ∧
      (∀ b ∈ [(⟨2, [0x41]⟩ : Block), ⟨1, []⟩], b.wf) ∧
      Window.bytes ⟨0, 3⟩ (machine 0 [2, 0x41, 1] 0 3 0x200 2).mem = blocksBytes [⟨2, [0x41]⟩, ⟨1, []⟩]) ∧
    (DecodeAdmitted (machine 0 [2, 0x41, 0, 9] 0 4 0x200 3) ⟨0, 4⟩ ⟨0x200, 3⟩ ∧ DecodeSized 4 3 ∧
      (∀ b ∈ [(⟨2, [0x41]⟩ : Block)], b.wf) ∧
      Window.bytes ⟨0, 4⟩ (machine 0 [2, 0x41, 0, 9] 0 4 0x200 3).mem = blocksBytes [⟨2, [0x41]⟩] ++ 0x00#8 :: [9]) := by
  decide
/-- V53's stream: an escape block and the block 01. -/
theorem witness_DecodeOfOlderVariantStream :
    (∀ b ∈ ([] : List Block) ++ [⟨0xFF, List.replicate 254 7⟩], b.wf) ∧
    DecodeAdmitted (machine 0 (0xFF :: (List.replicate 254 7 ++ [1])) 0 256 0x200 255) ⟨0, 256⟩ ⟨0x200, 255⟩ ∧
    DecodeSized 256 255 ∧
    Window.bytes ⟨0, 256⟩ (machine 0 (0xFF :: (List.replicate 254 7 ++ [1])) 0 256 0x200 255).mem =
      blocksBytes ([] ++ [⟨0xFF, List.replicate 254 7⟩]) ++ [0x01#8] := by
  decide +kernel
/-- V37 and V47. -/
theorem witness_DecodeOfEmptyPayloadReturnsZero :
    (DecodeAdmitted (machine 0 [1, 0] 0 2 0x200 1) ⟨0, 2⟩ ⟨0x200, 1⟩ ∧ DecodeSized 2 1 ∧
      Memory.read (machine 0 [1, 0] 0 2 0x200 1).mem 0 = 0x01#8 ∧
      Memory.read (machine 0 [1, 0] 0 2 0x200 1).mem (0 + 1) = 0x00#8) ∧
    (DecodeAdmitted (machine 0 [] 0 2 0x200 1) ⟨0, 2⟩ ⟨0x200, 1⟩ ∧
      Memory.read (machine 0 [] 0 2 0x200 1).mem 0 = 0x00#8 ∧
      Memory.read (machine 0 [] 0 2 0x200 1).mem (0 + 1) = 0x00#8) := by
  decide

theorem witness_DecipCompletesOrRefusesRange :
    (HoldsOneWindow inPlace ⟨0x100, 6⟩ ∧ Window.Fits ⟨0x100, 6⟩ inPlace.cfg) ∧
    (HoldsOneWindow outOfRange ⟨0xFFFE, 4⟩ ∧ ¬ Window.Fits ⟨0xFFFE, 4⟩ outOfRange.cfg) := by
  decide
theorem witness_DecipFailsExactlyBelowTwoBytes :
    DecipAdmitted (machine 0 [1] 0xFFFF 1 0 0) ⟨0xFFFF, 1⟩ ∧ DecipAdmitted (machine 0 [1] 0xFFFE 2 0 0) ⟨0xFFFE, 2⟩ := by
  decide
theorem witness_DecipFrameKeepsTheTail :
    DecipAdmitted inPlace ⟨0x100, 6⟩ ∧ (nextState (exec .decip inPlace)).isSome = true := by decide
theorem witness_DecodeOntoItselfEqualsDecip :
    HoldsOneWindow inPlace ⟨0x100, 6⟩ ∧
    HoldsTwoWindows { inPlace with arg2 := .value 0x100, arg3 := .value 6 } ⟨0x100, 6⟩ ⟨0x100, 6⟩ ∧
    (nextState (exec .decip inPlace)).isSome = true := by
  decide
theorem witness_DecipMatchesDecodeIntoSeparateWindow :
    DecipAdmitted inPlace ⟨0x100, 6⟩ ∧
    DecodeAdmitted { inPlace with arg2 := .value 0x300, arg3 := .value 6 } ⟨0x100, 6⟩ ⟨0x300, 6⟩ ∧
    ¬ Window.Shares ⟨0x100, 6⟩ ⟨0x300, 6⟩ ∧
    Window.bytes ⟨0x100, 6⟩ { inPlace with arg2 := .value 0x300, arg3 := .value 6 }.mem =
      Window.bytes ⟨0x100, 6⟩ inPlace.mem := by
  decide
/-- An encoding with its delimiter, then a DECODE into a third window and a DECIP of the same bytes. -/
theorem witness_DecodingAnEncodingGivesTheInputBack :
    ∃ t, EncodeAdmitted encoding ⟨0x100, 4⟩ ⟨0x200, 6⟩ ∧ bufferSize 4 true ≤ 6 ∧
      exec (.encode true) encoding = .next t ∧ t.result = .value 6 ∧
      DecodeAdmitted { t with arg0 := .value 0x200, arg1 := .value 6, arg2 := .value 0x300, arg3 := .value 5 }
        ⟨0x200, 6⟩ ⟨0x300, 5⟩ ∧ 6 - 1 ≤ 5 ∧
      DecipAdmitted { t with arg0 := .value 0x200, arg1 := .value 6 } ⟨0x200, 6⟩ :=
  ⟨_, by decide, by decide, rfl, by decide, by decide, by decide, by decide⟩

end Sys2Proof.Tests
end

namespace Sys2Proof.Machine

/-- Settles O8: the two halves are the step rules for a recorded fault and for a recorded refusal (00_scope.md R10,
60_exceptions.md R110). That the step after the one that recorded the stop is the one that answers it is the model's
reading (log entry 4). -/
theorem recordedStopIsPermanent : Obligations.RecordedStopIsPermanent := by
  intro s
  constructor
  · exact fun _ recorded => step_of_fault recorded
  · exact fun _ recorded => step_of_refused recorded

end Sys2Proof.Machine

/-! ### What a host action, a command word and a host read can do -/

namespace Sys2Proof.Machine

/-- The inversion of the host's actions (70_reset_and_hazards.md R125): each with its guard and the state it leaves. -/
theorem hostAct_next_cases {s t : State} {a : HostAction} (h : hostAct s a = .next t) :
    (∃ k v, a = .writeArg k v ∧ v < s.cfg.memSize ∧ t = writeArg s k v) ∨
    (∃ v, a = .writeCmd v ∧ t = issueCommand v s) ∨
    (∃ v, a = .writeResult v ∧ t = s) ∨
    (∃ x b, a = .writeMem x b ∧ x < s.cfg.memSize ∧ t = { s with mem := Memory.write s.mem x b }) ∨
    (∃ r, a = .readReg r ∧ t = hostReadReg r s) ∨
    (∃ x, a = .readMem x ∧ x < s.cfg.memSize ∧ t = hostReceives (Memory.read s.mem x).toNat s) ∨
    (a = .reset ∧ t = applyReset s) := by
  cases a with
  | writeArg k v =>
    simp only [hostAct] at h
    split_ifs at h with hv
    cases h
    exact .inl ⟨k, v, rfl, hv, rfl⟩
  | writeCmd v =>
    cases h
    exact .inr (.inl ⟨v, rfl, rfl⟩)
  | writeResult v =>
    cases h
    exact .inr (.inr (.inl ⟨v, rfl, rfl⟩))
  | writeMem x b =>
    simp only [hostAct] at h
    split_ifs at h with hx
    cases h
    exact .inr (.inr (.inr (.inl ⟨x, b, rfl, hx, rfl⟩)))
  | readReg r =>
    cases h
    exact .inr (.inr (.inr (.inr (.inl ⟨r, rfl, rfl⟩))))
  | readMem x =>
    simp only [hostAct] at h
    split_ifs at h with hx
    cases h
    exact .inr (.inr (.inr (.inr (.inr (.inl ⟨x, rfl, hx, rfl⟩)))))
  | reset =>
    cases h
    exact .inr (.inr (.inr (.inr (.inr (.inr ⟨rfl, rfl⟩)))))

/-- A word written to CMD runs a command that ends ok, or leaves its refusal or fault in the record
(10_state.md R16, 60_exceptions.md R110). -/
theorem issueCommand_cases (v : CmdWord) (s : State) :
    (∃ i, decode v = .command i ∧ exec i (latchCmd v s) = .next (issueCommand v s)) ∨
      ∃ x, issueCommand v s = recordStop (latchCmd v s) x := by
  cases hd : decode v with
  | reserved why => exact .inr ⟨_, issueCommand_reserved s hd⟩
  | command i =>
    rw [issueCommand_command s hd]
    cases he : exec i (latchCmd v s) with
    | next t => exact .inl ⟨i, rfl, he⟩
    | fault f => exact .inr ⟨_, rfl⟩
    | refused r => exact .inr ⟨_, rfl⟩

theorem hostReadReg_value {s : State} {r : RegName} {v : Nat} (h : readReg s r = .value v) :
    hostReadReg r s = hostReceives v s := by
  simp [hostReadReg, h]

theorem hostReadReg_unwritten {s : State} {r : RegName} (h : readReg s r = .unwritten) :
    hostReadReg r s = recordStop s (.fault .unwrittenReg) := by
  simp [hostReadReg, h]

/-- A host read gives the host a value or records the fault (10_state.md R19). -/
theorem hostReadReg_cases (r : RegName) (s : State) :
    (∃ v, hostReadReg r s = hostReceives v s) ∨ ∃ x, hostReadReg r s = recordStop s x := by
  cases h : readReg s r with
  | unwritten => exact .inr ⟨_, hostReadReg_unwritten h⟩
  | value v => exact .inl ⟨v, hostReadReg_value h⟩

end Sys2Proof.Machine

/-! ### Memory within an address bound -/

namespace Sys2Proof.Machine

/-- Memory in canonical form that lists only addresses below `bound`: the part of `State.wf` about MEM. -/
abbrev Memory.InBounds (bound : Nat) (m : Memory) : Prop := Memory.wf m ∧ ∀ c ∈ m, c.1 < bound

theorem Memory.InBounds.write {bound a : Nat} {m : Memory} (h : Memory.InBounds bound m) (ha : a < bound) (b : Byte) :
    Memory.InBounds bound (Memory.write m a b) :=
  ⟨Memory.wf_write m a b h.1, Memory.below_write m a bound b ha h.2⟩

end Sys2Proof.Machine

/-! ### ENCODE: the ranges of its variables and of its writes (10_state.md R26, 41_encoder.md R78) -/

namespace Sys2Proof.Machine

/-- The ranges of ENCODE's variables before each input byte. `growth` counts the output: one byte per input byte, and
one more per forced split, which takes 254 literals. -/
structure EncodeVars.InRange (len : Nat) (v : EncodeVars) : Prop where
  slot_lt : v.slot < v.o
  code_pos : 1 ≤ v.code
  code_le : v.code ≤ 255
  code_le_of_more : v.i < len → v.code ≤ 254
  growth : 254 * v.o + v.code ≤ 255 * v.i + 255

theorem encodeStart_inRange (len : Nat) (m : Memory) : (encodeStart m).InRange len := by
  constructor <;> simp

theorem encodeByte_inRange {inp : Window} (out : Window) {v : EncodeVars} (h : v.InRange inp.len)
    (more : v.i < inp.len) : (encodeByte inp out v).InRange inp.len := by
  obtain ⟨slot_lt, code_pos, -, code_le_of_more, growth⟩ := h
  have code_le := code_le_of_more more
  rcases encodeByte_cases inp out v with ⟨-, e⟩ | ⟨-, noSplit, e⟩ | ⟨-, full, -, e⟩ <;> rw [e]
  · constructor <;> dsimp only <;> omega
  · simp only [Config.escape] at noSplit
    constructor <;> dsimp only <;> omega
  · simp only [Config.escape] at full
    constructor <;> dsimp only <;> omega

/-- The ranges hold after any number of input bytes. -/
theorem encodeScan_inRange (inp out : Window) (m : Memory) {k : Nat} (hk : k ≤ inp.len) :
    (encodeScan inp out k (encodeStart m)).InRange inp.len := by
  induction k with
  | zero => exact encodeStart_inRange inp.len m
  | succ k ih =>
    rw [encodeScan_succ_last]
    exact encodeByte_inRange out (ih (by omega)) (by simpa using hk)

theorem le_encodeByte_o (inp out : Window) (v : EncodeVars) : v.o ≤ (encodeByte inp out v).o := by
  rcases encodeByte_cases inp out v with ⟨-, e⟩ | ⟨-, -, e⟩ | ⟨-, -, -, e⟩ <;> rw [e] <;> simp

/-- The output offset never goes back. -/
theorem encodeScan_o_mono (inp out : Window) (v : EncodeVars) : Monotone fun k => (encodeScan inp out k v).o := by
  refine monotone_nat_of_le_succ fun k => ?_
  rw [encodeScan_succ_last]
  exact le_encodeByte_o inp out _

theorem encodeRun_o (inp out : Window) (d : Bool) (m : Memory) :
    (encodeRun inp out d m).o = (encodeScan inp out inp.len (encodeStart m)).o + delimiterLength d := by
  simp [encodeRun]

/-- ENCODE's output is no longer than BUFSIZE says (40_size_estimator.md R68). -/
theorem encodeRun_o_le (inp out : Window) (d : Bool) (m : Memory) :
    (encodeRun inp out d m).o ≤ bufferSize inp.len d := by
  have growth := (encodeScan_inRange inp out m le_rfl).growth
  have code_pos := (encodeScan_inRange inp out m le_rfl).code_pos
  rw [encodeScan_i, encodeStart_i] at growth
  rw [encodeRun_o]
  unfold bufferSize Config.maxRun
  omega

/-- One input byte writes only below the output offset it leaves. -/
theorem encodeByte_inBounds {bound : Nat} (inp out : Window) {v : EncodeVars} (slot_lt : v.slot < v.o)
    (fits : out.base + (encodeByte inp out v).o ≤ bound) (h : Memory.InBounds bound v.port.mem) :
    Memory.InBounds bound (encodeByte inp out v).port.mem := by
  rcases encodeByte_cases inp out v with ⟨-, e⟩ | ⟨-, -, e⟩ | ⟨-, -, -, e⟩ <;> rw [e] at fits ⊢ <;> dsimp only at fits
  · exact h.write (by omega) _
  · exact h.write (by omega) _
  · exact (h.write (by omega) _).write (by omega) _

theorem encodeScan_inBounds {bound : Nat} (inp out : Window) {m : Memory} (h : Memory.InBounds bound m) {k : Nat}
    (hk : k ≤ inp.len) (fits : out.base + (encodeScan inp out k (encodeStart m)).o ≤ bound) :
    Memory.InBounds bound (encodeScan inp out k (encodeStart m)).port.mem := by
  induction k with
  | zero => exact h
  | succ k ih =>
    have hk' : k ≤ inp.len := by omega
    rw [encodeScan_succ_last] at fits ⊢
    have grows := le_encodeByte_o inp out (encodeScan inp out k (encodeStart m))
    exact encodeByte_inBounds inp out (encodeScan_inRange inp out m hk').slot_lt fits (ih hk' (by omega))

theorem encodeDelimiter_inBounds {bound : Nat} (out : Window) (d : Bool) {v : EncodeVars}
    (fits : out.base + (encodeDelimiter out d v).o ≤ bound) (h : Memory.InBounds bound v.port.mem) :
    Memory.InBounds bound (encodeDelimiter out d v).port.mem := by
  cases d with
  | false => exact h
  | true => exact h.write (a := out.base + v.o) (Nat.lt_of_succ_le fits) Config.special

/-- ENCODE writes only the bytes of its output, the delimiter included. -/
theorem encodeRun_inBounds {bound : Nat} (inp out : Window) (d : Bool) {m : Memory} (h : Memory.InBounds bound m)
    (fits : out.base + (encodeRun inp out d m).o ≤ bound) :
    Memory.InBounds bound (encodeRun inp out d m).port.mem := by
  have slot_lt := (encodeScan_inRange inp out m le_rfl).slot_lt
  refine encodeDelimiter_inBounds out d fits ?_
  rw [encodeRun_o] at fits
  exact (encodeScan_inBounds inp out h le_rfl (by omega)).write (by omega) _

end Sys2Proof.Machine

/-! ### DECODE and DECIP: the write cursor stays behind the read cursor (10_state.md R27, 42_decoder.md R94) -/

namespace Sys2Proof.Machine

theorem decodeCopy_inBounds {bound : Nat} (inp out : Window) (k : Nat) {v : DecodeVars}
    (fits : out.base + v.w + k ≤ bound) (h : Memory.InBounds bound v.port.mem) :
    Memory.InBounds bound (decodeCopy inp out k v).port.mem := by
  induction k generalizing v with
  | zero => exact h
  | succ k ih =>
    rw [decodeCopy_succ]
    refine ih ?_ (h.write (by omega) _)
    rw [decodeCopyByte_w]
    omega

/-- A block writes only below the write cursor it leaves. -/
theorem decodeBlock_inBounds {bound : Nat} (inp out : Window) {v : DecodeVars}
    (fits : out.base + (decodeBlock inp out v).w ≤ bound) (h : Memory.InBounds bound v.port.mem) :
    Memory.InBounds bound (decodeBlock inp out v).port.mem := by
  rw [decodeBlock_w] at fits
  refine decodeCopy_inBounds inp out _ ?_ h
  rw [decodeReadCode_w]
  omega

/-- A block's code byte takes an input byte and gives no output byte. -/
theorem decodeBlock_w_lt_r (inp out : Window) {v : DecodeVars} (h : v.w ≤ v.r) :
    (decodeBlock inp out v).w < (decodeBlock inp out v).r := by
  rw [decodeBlock_w, decodeBlock_r]
  omega

theorem decodeImpliedZero_w_le (out : Window) (v : DecodeVars) : (decodeImpliedZero out v).w ≤ v.w + 1 := by
  rcases decodeImpliedZero_cases out v with ⟨-, e⟩ | ⟨-, e⟩ <;> rw [e]
  exact Nat.le_succ _

theorem decodeImpliedZero_inBounds {bound : Nat} (out : Window) {v : DecodeVars} (fits : out.base + v.w < bound)
    (h : Memory.InBounds bound v.port.mem) : Memory.InBounds bound (decodeImpliedZero out v).port.mem := by
  rcases decodeImpliedZero_cases out v with ⟨-, e⟩ | ⟨-, e⟩ <;> rw [e]
  · exact h
  · exact h.write fits Config.special

/-- From a block's start inside the input, with the write cursor not past the read cursor, the loop gives fewer bytes
than the input has, and writes only those. -/
theorem decodeLoop_inBounds {bound : Nat} {inp out : Window} (fits : out.base + (inp.len - 1) ≤ bound) (fuel : Nat)
    {v : DecodeVars} (inside : v.r < inp.len) (behind : v.w ≤ v.r) (h : Memory.InBounds bound v.port.mem) :
    (decodeLoop inp out fuel v).w < inp.len ∧ Memory.InBounds bound (decodeLoop inp out fuel v).port.mem := by
  induction fuel generalizing v with
  | zero => exact ⟨lt_of_le_of_lt behind inside, h⟩
  | succ fuel ih =>
    have w_lt_r := decodeBlock_w_lt_r inp out behind
    obtain ⟨-, r_le⟩ := decodeBlock_r_le inp out v inside
    have block := decodeBlock_inBounds (bound := bound) inp out (by omega) h
    rcases decodeLoop_cases inp out fuel v with ⟨-, e⟩ | ⟨-, -, e⟩ | ⟨more, -, e⟩ <;> rw [e]
    · exact ⟨by omega, block⟩
    · exact ⟨lt_of_lt_of_le w_lt_r r_le, block⟩
    · have zero_w := decodeImpliedZero_w_le out (decodePeek inp (decodeBlock inp out v))
      rw [decodePeek_w] at zero_w
      refine ih ?_ ?_ (decodeImpliedZero_inBounds out ?_ block)
      · rwa [decodeImpliedZero_r, decodePeek_r]
      · rw [decodeImpliedZero_r, decodePeek_r]
        omega
      · rw [decodePeek_w]
        omega

/-- A DECODE or DECIP whose checks have passed writes only the `L - 1` bytes from OUT_BASE on, and RESULT is below L. -/
theorem decodeRun_inBounds {bound : Nat} {inp out : Window} {m : Memory} (nonempty : 0 < inp.len)
    (fits : out.base + (inp.len - 1) ≤ bound) (h : Memory.InBounds bound m) :
    (decodeRun inp out m).w < inp.len ∧ Memory.InBounds bound (decodeRun inp out m).port.mem :=
  decodeLoop_inBounds fits inp.len (v := decodeStart m) nonempty le_rfl h

end Sys2Proof.Machine

/-! ### The state's invariant, kept by commands and host actions -/

namespace Sys2Proof.Machine

theorem Config.two_le_memSize (c : Config) : 2 ≤ c.memSize :=
  Nat.le_self_pow c.addrBits_pos.ne' 2

/-- The size of an ADDR_BITS-bit length has ADDR_BITS + 1 bits (40_size_estimator.md R67). -/
theorem bufferSize_lt {n : Nat} {c : Config} (h : n < c.memSize) (d : Bool) : bufferSize n d < 2 * c.memSize := by
  have two_le := Config.two_le_memSize c
  have delimiter_le : delimiterLength d ≤ 1 := by cases d <;> decide
  unfold bufferSize Config.maxRun
  omega

theorem State.wf.setResultMem {s : State} (h : s.wf) {count : Nat} {m : Memory} (hc : count < 2 * s.cfg.memSize)
    (hm : Memory.InBounds s.cfg.memSize m) : State.wf { s with result := .value count, mem := m } :=
  ⟨h.1, by simpa [Reg.fits] using hc, hm⟩

theorem execBufsize_keeps_wf {d : Bool} {s t : State} (h : s.wf) (he : execBufsize d s = .next t) : t.wf := by
  obtain ⟨⟨hn, -⟩, -, inBounds⟩ := id h
  rcases execBufsize_cases d s with ⟨-, e⟩ | ⟨n, h0, e⟩ <;> rw [e] at he
  · cases he
  · have n_lt : n < s.cfg.memSize := by simpa [h0, Reg.fits] using hn
    rw [complete_eq_next] at he
    exact he ▸ h.setResultMem (bufferSize_lt n_lt d) inBounds

/-- A command that fails by RESULT = 0 keeps the invariant. -/
theorem State.wf.setResultZero {s : State} (h : s.wf) : State.wf { s with result := .value 0 } :=
  h.setResultMem (by have := Config.two_le_memSize s.cfg; omega) h.2.2

theorem execEncode_keeps_wf {d : Bool} {s t : State} (h : s.wf) (he : execEncode d s = .next t) : t.wf := by
  obtain ⟨inp, out, ⟨-, -, outFits, -⟩, ⟨-, rfl⟩ | ⟨sized, rfl⟩⟩ := execEncode_next he
  · exact h.setResultZero
  · have two_le := Config.two_le_memSize s.cfg
    have o_le := encodeRun_o_le inp out d s.mem
    exact h.setResultMem (by omega) (encodeRun_inBounds inp out d h.2.2 (by omega))

/-- The loop that DECODE and DECIP share keeps the invariant. -/
theorem decodeRun_keeps_wf {s : State} {inp out : Window} (h : s.wf) (inpFits : inp.Fits s.cfg)
    (outFits : out.Fits s.cfg) (sized : DecodeSized inp.len out.len) :
    State.wf { s with result := .value (decodeRun inp out s.mem).w, mem := (decodeRun inp out s.mem).port.mem } := by
  obtain ⟨w_lt, inBounds⟩ := decodeRun_inBounds (inp := inp) (out := out) (by omega) (by omega) h.2.2
  exact h.setResultMem (by omega) inBounds

theorem execDecode_keeps_wf {s t : State} (h : s.wf) (he : execDecode s = .next t) : t.wf := by
  obtain ⟨inp, out, ⟨-, inpFits, outFits, -⟩, ⟨-, rfl⟩ | ⟨sized, rfl⟩⟩ := execDecode_next he
  · exact h.setResultZero
  · exact decodeRun_keeps_wf h inpFits outFits sized

theorem execDecip_keeps_wf {s t : State} (h : s.wf) (he : execDecip s = .next t) : t.wf := by
  obtain ⟨buf, ⟨-, bufFits⟩, ⟨-, rfl⟩ | ⟨sized, rfl⟩⟩ := execDecip_next he
  · exact h.setResultZero
  · exact decodeRun_keeps_wf h bufFits bufFits sized

theorem exec_keeps_wf {i : Instr} {s t : State} (h : s.wf) (he : exec i s = .next t) : t.wf := by
  cases i with
  | bufsize d => exact execBufsize_keeps_wf h he
  | encode d => exact execEncode_keeps_wf h he
  | decode => exact execDecode_keeps_wf h he
  | decip => exact execDecip_keeps_wf h he

theorem issueCommand_keeps_wf {s : State} (h : s.wf) (v : CmdWord) : (issueCommand v s).wf := by
  rcases issueCommand_cases v s with ⟨i, -, he⟩ | ⟨x, e⟩
  · exact exec_keeps_wf (s := latchCmd v s) h he
  · rw [e]
    exact h

theorem writeArg_keeps_wf {s : State} (h : s.wf) (k : ArgIndex) {v : Nat} (hv : v < s.cfg.memSize) :
    (writeArg s k v).wf := by
  obtain ⟨⟨h0, h1, h2, h3⟩, hrest⟩ := h
  have fits : Reg.fits s.cfg.memSize (.value v) = true := by simpa [Reg.fits] using hv
  cases k with
  | arg0 => exact ⟨⟨fits, h1, h2, h3⟩, hrest⟩
  | arg1 => exact ⟨⟨h0, fits, h2, h3⟩, hrest⟩
  | arg2 => exact ⟨⟨h0, h1, fits, h3⟩, hrest⟩
  | arg3 => exact ⟨⟨h0, h1, h2, fits⟩, hrest⟩

theorem hostReadReg_keeps_wf {s : State} (h : s.wf) (r : RegName) : (hostReadReg r s).wf := by
  rcases hostReadReg_cases r s with ⟨v, e⟩ | ⟨x, e⟩ <;> rw [e] <;> exact h

theorem applyReset_keeps_wf {s : State} (h : s.wf) : (applyReset s).wf :=
  ⟨⟨rfl, rfl, rfl, rfl⟩, rfl, h.2.2⟩

theorem hostAct_keeps_wf {s t : State} {a : HostAction} (h : s.wf) (ha : hostAct s a = .next t) : t.wf := by
  obtain ⟨k, v, -, hv, rfl⟩ | ⟨v, -, rfl⟩ | ⟨v, -, rfl⟩ | ⟨x, b, -, hx, rfl⟩ | ⟨r, -, rfl⟩ | ⟨x, -, -, rfl⟩ | ⟨-, rfl⟩ :=
    hostAct_next_cases ha
  · exact writeArg_keeps_wf h k hv
  · exact issueCommand_keeps_wf h v
  · exact h
  · exact ⟨h.1, h.2.1, Memory.InBounds.write h.2.2 hx b⟩
  · exact hostReadReg_keeps_wf h r
  · exact h
  · exact applyReset_keeps_wf h

/-- Settles O20: a step waits or takes a host action, and each host action keeps the invariant. For a command it turns
on the bound of what ENCODE and DECODE write: no more than BUFSIZE, and no more than `L - 1` bytes. -/
theorem stepKeepsTheStateWellFormed : Obligations.StepKeepsTheStateWellFormed := by
  intro s t h hs
  obtain ⟨-, ⟨-, rfl⟩ | ⟨a, rest, -, ha⟩⟩ := step_next hs
  · exact h
  · exact hostAct_keeps_wf (s := { s with hostActions := rest }) h ha

/-- Settles O40: the ranges by induction on the input bytes read, and the output offset by its monotonicity. -/
theorem encodeVariablesStayInRange : Obligations.EncodeVariablesStayInRange := by
  intro inp out m k hk
  obtain ⟨slot_lt, code_pos, code_le, code_le_of_more, -⟩ := encodeScan_inRange inp out m hk
  rw [encodeScan_i, encodeStart_i, zero_add] at code_le_of_more
  exact ⟨by simp, slot_lt, by simpa [encodeRun] using encodeScan_o_mono inp out (encodeStart m) hk,
    code_pos, code_le, code_le_of_more⟩

end Sys2Proof.Machine

/-! ### What a command writes and what stops it (10_state.md R17 to R19) -/

namespace Sys2Proof.Machine

/-- A command that ends ok gives RESULT a value and MEM its contents, and nothing else. -/
theorem exec_next {i : Instr} {s t : State} (h : exec i s = .next t) :
    ∃ count m, t = { s with result := .value count, mem := m } := by
  cases i with
  | bufsize d =>
    rcases execBufsize_cases d s with ⟨-, e⟩ | ⟨n, -, e⟩ <;> rw [exec, e] at h
    · cases h
    · exact ⟨_, _, ((complete_eq_next ..).1 h).symm⟩
  | encode d => obtain ⟨_, _, _, ⟨-, e⟩ | ⟨-, e⟩⟩ := execEncode_next h <;> exact ⟨_, _, e⟩
  | decode => obtain ⟨_, _, _, ⟨-, e⟩ | ⟨-, e⟩⟩ := execDecode_next h <;> exact ⟨_, _, e⟩
  | decip => obtain ⟨_, _, ⟨-, e⟩ | ⟨-, e⟩⟩ := execDecip_next h <;> exact ⟨_, _, e⟩

/-- An outcome that stops leaves the state with the stop recorded. -/
theorem settle_of_stopReason {s : State} {o : Result} {x : Stop} (h : stopReason o = some x) :
    settle s o = recordStop s x := by
  cases o <;> cases h <;> rfl

/-- Settles O23: an ok command by the inversion of `exec`, a stopped one by what recording does. -/
theorem okWritesResultAndStopWritesNothing : Obligations.OkWritesResultAndStopWritesNothing := by
  intro i s
  refine ⟨fun t h => ?_, fun x h => settle_of_stopReason h⟩
  obtain ⟨count, m, rfl⟩ := exec_next h
  exact ⟨rfl, count, rfl⟩

/-- Settles O22: whatever the outcome, the state left differs at most in RESULT, MEM and the record. -/
theorem commandsKeepArgsAndCmd : Obligations.CommandsKeepArgsAndCmd := by
  intro i s
  cases h : exec i s with
  | next t =>
    obtain ⟨count, m, rfl⟩ := exec_next h
    simp
  | fault f => simp
  | refused r => simp

theorem hostReadReg_result (r : RegName) (s : State) : (hostReadReg r s).result = s.result := by
  rcases hostReadReg_cases r s with ⟨v, e⟩ | ⟨x, e⟩ <;> rw [e] <;> simp

/-- Settles O24: of the host's actions only a reset and a command that ends ok touch RESULT. -/
theorem onlyCommandsAndResetChangeResult : Obligations.OnlyCommandsAndResetChangeResult := by
  intro s t h changed
  obtain ⟨-, ⟨-, rfl⟩ | ⟨a, rest, hl, ha⟩⟩ := step_next h
  · exact absurd rfl changed
  refine ⟨rest, ?_⟩
  obtain ⟨k, v, -, -, rfl⟩ | ⟨v, rfl, rfl⟩ | ⟨v, -, rfl⟩ | ⟨x, b, -, -, rfl⟩ | ⟨r, -, rfl⟩ | ⟨x, -, -, rfl⟩ | ⟨rfl, -⟩ :=
    hostAct_next_cases ha
  · exact absurd (writeArg_result ..) changed
  · rcases issueCommand_cases v { s with hostActions := rest } with ⟨i, hd, he⟩ | ⟨x, e⟩
    · exact .inr ⟨v, i, hl, hd, he⟩
    · exact absurd (by rw [e]; rfl) changed
  · exact absurd rfl changed
  · exact absurd rfl changed
  · exact absurd (hostReadReg_result ..) changed
  · exact absurd rfl changed
  · exact .inl hl

theorem complete_ne_fault (count : Nat) (m : Memory) (s : State) (f : Fault) : complete count m s ≠ .fault f := by
  simp [complete]

theorem encodeWindows_ne_fault (d : Bool) (inp out : Window) (s : State) (f : Fault) :
    encodeWindows d inp out s ≠ .fault f := by
  unfold encodeWindows
  split_ifs <;> exact complete_ne_fault _ _ _ _

theorem decodeWindows_ne_fault (inp out : Window) (s : State) (f : Fault) : decodeWindows inp out s ≠ .fault f := by
  unfold decodeWindows
  split_ifs <;> exact complete_ne_fault _ _ _ _

theorem refused_ne_fault (r : Refusal) (f : Fault) : (.refused r : Result) ≠ .fault f := by simp

/-- A command on two windows that goes on without this fault raises it exactly for an unwritten operand. -/
theorem withTwoWindows_unwritten_iff {s : State} {use : Window → Window → Result}
    (noFault : ∀ inp out, use inp out ≠ .fault .unwrittenReg) :
    withTwoWindows s use = .fault .unwrittenReg ↔
      ∃ k ∈ [ArgIndex.arg0, .arg1, .arg2, .arg3], readArg s k = .unwritten := by
  rcases withTwoWindows_cases s use with ⟨⟨k, hk⟩, e⟩ | ⟨inp, out, hw, e⟩
  · exact iff_of_true e ⟨k, by cases k <;> simp, hk⟩
  · obtain ⟨h0, h1, h2, h3⟩ := hw
    exact iff_of_false (e ▸ noFault inp out) (by simp [h0, h1, h2, h3])

/-- A command on one window that goes on without this fault raises it exactly for an unwritten operand. -/
theorem withOneWindow_unwritten_iff {s : State} {use : Window → Result}
    (noFault : ∀ buf, use buf ≠ .fault .unwrittenReg) :
    withOneWindow s use = .fault .unwrittenReg ↔ ∃ k ∈ [ArgIndex.arg0, .arg1], readArg s k = .unwritten := by
  rcases withOneWindow_cases s use with ⟨hk, e⟩ | ⟨buf, hw, e⟩
  · exact iff_of_true e (by simpa using hk)
  · obtain ⟨h0, h1⟩ := hw
    exact iff_of_false (e ▸ noFault buf) (by simp [h0, h1])

theorem execBufsize_unwritten_iff (d : Bool) (s : State) :
    execBufsize d s = .fault .unwrittenReg ↔ ∃ k ∈ [ArgIndex.arg0], readArg s k = .unwritten := by
  rcases execBufsize_cases d s with ⟨h0, e⟩ | ⟨n, h0, e⟩
  · exact iff_of_true e (by simpa using h0)
  · exact iff_of_false (e ▸ complete_ne_fault _ _ _ _) (by simp [h0])

theorem execEncode_unwritten_iff (d : Bool) (s : State) :
    execEncode d s = .fault .unwrittenReg ↔
      ∃ k ∈ [ArgIndex.arg0, .arg1, .arg2, .arg3], readArg s k = .unwritten := by
  refine withTwoWindows_unwritten_iff fun inp out => ?_
  split_ifs
  · exact refused_ne_fault _ _
  · exact refused_ne_fault _ _
  · exact encodeWindows_ne_fault _ _ _ _ _

theorem execDecode_unwritten_iff (s : State) :
    execDecode s = .fault .unwrittenReg ↔
      ∃ k ∈ [ArgIndex.arg0, .arg1, .arg2, .arg3], readArg s k = .unwritten := by
  refine withTwoWindows_unwritten_iff fun inp out => ?_
  split_ifs
  · exact refused_ne_fault _ _
  · exact refused_ne_fault _ _
  · exact decodeWindows_ne_fault _ _ _ _

theorem execDecip_unwritten_iff (s : State) :
    execDecip s = .fault .unwrittenReg ↔ ∃ k ∈ [ArgIndex.arg0, .arg1], readArg s k = .unwritten := by
  refine withOneWindow_unwritten_iff fun buf => ?_
  split_ifs
  · exact refused_ne_fault _ _
  · exact decodeWindows_ne_fault _ _ _ _

/-- Settles O26: each instruction reads exactly the registers of `operandRegs`, before anything else, and nothing after
them raises this fault. -/
theorem unwrittenOperandFaultsFirst : Obligations.UnwrittenOperandFaultsFirst := by
  intro i s
  cases i with
  | bufsize d => exact execBufsize_unwritten_iff d s
  | encode d => exact execEncode_unwritten_iff d s
  | decode => exact execDecode_unwritten_iff s
  | decip => exact execDecip_unwritten_iff s

end Sys2Proof.Machine

/-! ### Single steps (10_state.md R14, R16, R19) -/

namespace Sys2Proof.Machine

/-- A step whose next host action writes CMD issues the word. -/
theorem step_writeCmd {s : State} {v : CmdWord} {rest : List HostAction} (clean : s.record = none)
    (ha : s.hostActions = .writeCmd v :: rest) : step s = .next (issueCommand v { s with hostActions := rest }) := by
  rw [step_action clean ha, hostAct_writeCmd]

/-- A step whose next host action reads a register. -/
theorem step_readReg {s : State} {r : RegName} {rest : List HostAction} (clean : s.record = none)
    (ha : s.hostActions = .readReg r :: rest) : step s = .next (hostReadReg r { s with hostActions := rest }) :=
  step_action clean ha

/-- Settles O6: the step issues the word, and issuing settles the command's outcome in the state that latched it. -/
theorem stepRunsTheDecodedCommand : Obligations.StepRunsTheDecodedCommand := by
  rintro s _ v i rest clean ha hd rfl
  have issued : step s = .next (settle { s with hostActions := rest, cmd := .value v }
      (exec i { s with hostActions := rest, cmd := .value v })) := by
    rw [step_writeCmd clean ha, issueCommand_command _ hd]
    rfl
  exact ⟨fun t h => by rw [issued, h, settle_next], fun f h => by rw [issued, h, settle_fault, recordStop],
    fun r h => by rw [issued, h, settle_refused, recordStop]⟩

/-- Settles O12: the host's write of RESULT has the action rule that changes nothing (10_state.md R14). -/
theorem hostWriteOfResultHasNoEffect : Obligations.HostWriteOfResultHasNoEffect :=
  fun _ _ _ clean ha => step_action clean ha

/-- The registers do not depend on what the host has still to do. -/
theorem readReg_hostActions (s : State) (rest : List HostAction) (r : RegName) :
    readReg { s with hostActions := rest } r = readReg s r := by
  cases r with
  | cmd => rfl
  | arg k => cases k <;> rfl
  | result => rfl

/-- Settles O13: by whether the register read holds a value. -/
theorem hostReadReturnsTheRegisterOrFaults : Obligations.HostReadReturnsTheRegisterOrFaults := by
  intro s r rest clean ha
  rw [step_readReg clean ha]
  refine ⟨fun v h => ?_, fun h => ?_⟩
  · rw [hostReadReg_value ((readReg_hostActions s rest r).trans h)]
    rfl
  · rw [hostReadReg_unwritten ((readReg_hostActions s rest r).trans h)]
    rfl

end Sys2Proof.Machine

/-! ### Host accesses of MEM (20_memory.md R32, R38, 70_reset_and_hazards.md R125) -/

namespace Sys2Proof.Machine

theorem hostAct_readMem {s : State} {a : Nat} (h : a < s.cfg.memSize) :
    hostAct s (.readMem a) = .next (hostReceives (Memory.read s.mem a).toNat s) :=
  if_pos h

theorem hostAct_readMem_outside {s : State} {a : Nat} (h : s.cfg.memSize ≤ a) :
    hostAct s (.readMem a) = .fault .noSuchAddress :=
  if_neg h.not_gt

theorem hostAct_writeMem_outside {s : State} {a : Nat} (b : Byte) (h : s.cfg.memSize ≤ a) :
    hostAct s (.writeMem a b) = .fault .noSuchAddress :=
  if_neg h.not_gt

theorem hostAct_writeArg_outside {s : State} (k : ArgIndex) {v : Nat} (h : s.cfg.memSize ≤ v) :
    hostAct s (.writeArg k v) = .refused .argValueRange :=
  if_neg h.not_gt

/-- Settles O14: the step takes the read, and the read gives the host the byte and leaves the block as it is. -/
theorem hostReadReturnsTheByte : Obligations.HostReadReturnsTheByte :=
  fun _ _ _ clean ha below => (step_action clean ha).trans (hostAct_readMem below)

/-- Settles O15: the step takes the action, and the action's own bound, the model's choice (log entry 6), stops it. -/
theorem hostMoveOutsideTheInterfaceStops : Obligations.HostMoveOutsideTheInterfaceStops := by
  intro s rest clean
  refine ⟨fun a b ha outside => ?_, fun a ha outside => ?_, fun k v ha outside => ?_⟩
  · exact (step_action clean ha).trans (hostAct_writeMem_outside b outside)
  · exact (step_action clean ha).trans (hostAct_readMem_outside outside)
  · exact (step_action clean ha).trans (hostAct_writeArg_outside k outside)

end Sys2Proof.Machine

/-! ### ENCODE and DECODE check by check (60_exceptions.md R111) -/

namespace Sys2Proof.Machine

/-- Settles O31: ENCODE's first check is the windows' range, its second their overlap. -/
theorem encodeRefusesRangeThenOverlap : Obligations.EncodeRefusesRangeThenOverlap := by
  intro s inp out d holds
  refine ⟨fun noFit => ?_, fun inpFits outFits shares => ?_⟩
  · exact (execEncode_holds d holds).trans (if_pos noFit)
  · exact (execEncode_holds d holds).trans ((if_neg (not_not.2 ⟨inpFits, outFits⟩)).trans (if_pos shares))

/-- Settles O43: DECODE's first check is the windows' range, its second an overlap above the input. -/
theorem decodeRefusesRangeThenOverlapAbove : Obligations.DecodeRefusesRangeThenOverlapAbove := by
  intro s inp out holds
  refine ⟨fun noFit => ?_, fun inpFits outFits shares above => ?_⟩
  · exact (execDecode_holds holds).trans (if_pos noFit)
  · exact (execDecode_holds holds).trans
      ((if_neg (not_not.2 ⟨inpFits, outFits⟩)).trans (if_pos ⟨shares, above⟩))

/-- An admitted ENCODE has only its capacity check left (41_encoder.md R72). -/
theorem execEncode_admitted {s : State} {inp out : Window} (d : Bool) (h : EncodeAdmitted s inp out) :
    execEncode d s =
      if bufferSize inp.len d ≤ out.len then
        complete (encodeRun inp out d s.mem).o (encodeRun inp out d s.mem).port.mem s
      else complete 0 s.mem s := by
  obtain ⟨holds, inpFits, outFits, apart⟩ := h
  rw [execEncode_holds d holds, if_neg (not_not.2 ⟨inpFits, outFits⟩), if_neg apart, ite_not]

/-- An admitted DECODE has only its failure check left (42_decoder.md R86). -/
theorem execDecode_admitted {s : State} {inp out : Window} (h : DecodeAdmitted s inp out) :
    execDecode s =
      if DecodeSized inp.len out.len then
        complete (decodeRun inp out s.mem).w (decodeRun inp out s.mem).port.mem s
      else complete 0 s.mem s := by
  obtain ⟨holds, inpFits, outFits, notAbove⟩ := h
  rw [execDecode_holds holds, if_neg (not_not.2 ⟨inpFits, outFits⟩), if_neg notAbove, ite_not]

/-- An admitted DECIP has only its failure check left (43_inplace_decoder.md R102). -/
theorem execDecip_admitted {s : State} {buf : Window} (h : DecipAdmitted s buf) :
    execDecip s =
      if DecodeSized buf.len buf.len then
        complete (decodeRun buf buf s.mem).w (decodeRun buf buf s.mem).port.mem s
      else complete 0 s.mem s := by
  obtain ⟨holds, fits⟩ := h
  rw [execDecip_holds holds, if_neg (not_not.2 fits), ite_not]

end Sys2Proof.Machine

/-! ### What a command leaves of MEM (20_memory.md R42) -/

namespace Sys2Proof.Machine

theorem SameOutside.refl (m : Memory) (base count : Nat) : SameOutside m m base count := fun _ _ => rfl

/-- A frame with a longer output is a weaker one. -/
theorem SameOutside.mono {m m' : Memory} {base count count' : Nat} (h : SameOutside m m' base count)
    (le : count ≤ count') : SameOutside m m' base count' :=
  fun a ha => h a (by omega)

/-- A write inside the frame's window keeps the frame. -/
theorem SameOutside.write {m m' : Memory} {base count : Nat} (h : SameOutside m m' base count) {x : Nat}
    (lt : x < count) (b : Byte) : SameOutside m (Memory.write m' (base + x) b) base count :=
  fun a ha => (Memory.read_write_other m' (base + x) a b (by omega)).trans (h a ha)

/-- A write just past the frame's window makes the window one byte longer. -/
theorem SameOutside.writeNext {m m' : Memory} {base count : Nat} (h : SameOutside m m' base count) (b : Byte) :
    SameOutside m (Memory.write m' (base + count) b) base (count + 1) :=
  (h.mono (Nat.le_succ count)).write (Nat.lt_succ_self count) b

/-- One input byte writes only below the output offset it leaves. -/
theorem encodeByte_sameOutside (inp out : Window) {m : Memory} {v : EncodeVars} (slot_lt : v.slot < v.o)
    (h : SameOutside m v.port.mem out.base v.o) :
    SameOutside m (encodeByte inp out v).port.mem out.base (encodeByte inp out v).o := by
  rcases encodeByte_cases inp out v with ⟨-, e⟩ | ⟨-, -, e⟩ | ⟨-, -, -, e⟩ <;> rw [e] <;> dsimp only
  · exact (h.mono (Nat.le_succ v.o)).write (by omega) _
  · exact h.writeNext _
  · exact ((h.writeNext _).mono (Nat.le_succ (v.o + 1))).write (by omega) _

theorem encodeScan_sameOutside (inp out : Window) (m : Memory) {k : Nat} (hk : k ≤ inp.len) :
    SameOutside m (encodeScan inp out k (encodeStart m)).port.mem out.base
      (encodeScan inp out k (encodeStart m)).o := by
  induction k with
  | zero => exact SameOutside.refl m _ _
  | succ k ih =>
    rw [encodeScan_succ_last]
    exact encodeByte_sameOutside inp out (encodeScan_inRange inp out m (by omega)).slot_lt (ih (by omega))

theorem encodeDelimiter_sameOutside (out : Window) (d : Bool) {m : Memory} {v : EncodeVars}
    (h : SameOutside m v.port.mem out.base v.o) :
    SameOutside m (encodeDelimiter out d v).port.mem out.base (encodeDelimiter out d v).o := by
  cases d with
  | false => exact h
  | true => exact h.writeNext Config.special

/-- ENCODE changes only the RESULT bytes from OUT_BASE on (41_encoder.md R77). -/
theorem encodeRun_sameOutside (inp out : Window) (d : Bool) (m : Memory) :
    SameOutside m (encodeRun inp out d m).port.mem out.base (encodeRun inp out d m).o :=
  encodeDelimiter_sameOutside out d
    ((encodeScan_sameOutside inp out m le_rfl).write (encodeScan_inRange inp out m le_rfl).slot_lt _)

theorem decodeCopy_sameOutside (inp out : Window) (k : Nat) {m : Memory} {v : DecodeVars}
    (h : SameOutside m v.port.mem out.base v.w) :
    SameOutside m (decodeCopy inp out k v).port.mem out.base (decodeCopy inp out k v).w := by
  induction k generalizing v with
  | zero => exact h
  | succ k ih => exact ih (h.writeNext _)

theorem decodeBlock_sameOutside (inp out : Window) {m : Memory} {v : DecodeVars}
    (h : SameOutside m v.port.mem out.base v.w) :
    SameOutside m (decodeBlock inp out v).port.mem out.base (decodeBlock inp out v).w :=
  decodeCopy_sameOutside inp out _ (v := decodeReadCode inp v) h

theorem decodeImpliedZero_sameOutside (out : Window) {m : Memory} {v : DecodeVars}
    (h : SameOutside m v.port.mem out.base v.w) :
    SameOutside m (decodeImpliedZero out v).port.mem out.base (decodeImpliedZero out v).w := by
  rcases decodeImpliedZero_cases out v with ⟨-, e⟩ | ⟨-, e⟩ <;> rw [e]
  · exact h
  · exact h.writeNext Config.special

theorem decodeLoop_sameOutside (inp out : Window) (fuel : Nat) {m : Memory} {v : DecodeVars}
    (h : SameOutside m v.port.mem out.base v.w) :
    SameOutside m (decodeLoop inp out fuel v).port.mem out.base (decodeLoop inp out fuel v).w := by
  induction fuel generalizing v with
  | zero => exact h
  | succ fuel ih =>
    have block := decodeBlock_sameOutside inp out h
    rcases decodeLoop_cases inp out fuel v with ⟨-, e⟩ | ⟨-, -, e⟩ | ⟨-, -, e⟩ <;> rw [e]
    · exact block
    · exact block
    · exact ih (decodeImpliedZero_sameOutside out (v := decodePeek inp (decodeBlock inp out v)) block)

/-- DECODE and DECIP change only the RESULT bytes from OUT_BASE on (42_decoder.md R92, 43_inplace_decoder.md R104). -/
theorem decodeRun_sameOutside (inp out : Window) (m : Memory) :
    SameOutside m (decodeRun inp out m).port.mem out.base (decodeRun inp out m).w :=
  decodeLoop_sameOutside inp out inp.len (SameOutside.refl m _ _)

/-- A command that ends ok leaves MEM as it is, or changes at most the RESULT bytes of its output window. -/
theorem exec_sameOutside {i : Instr} {s t : State} (h : exec i s = .next t) :
    t.mem = s.mem ∨ ∃ base count, outputBase s i = .value base ∧ t.result = .value count ∧
      SameOutside s.mem t.mem base count := by
  cases i with
  | bufsize d =>
    rcases execBufsize_cases d s with ⟨-, e⟩ | ⟨n, -, e⟩ <;> rw [exec, e] at h
    · cases h
    · cases h
      exact .inl rfl
  | encode d =>
    obtain ⟨inp, out, ⟨⟨-, -, h2, -⟩, -⟩, ⟨-, rfl⟩ | ⟨-, rfl⟩⟩ := execEncode_next h
    · exact .inl rfl
    · exact .inr ⟨_, _, h2, rfl, encodeRun_sameOutside inp out d s.mem⟩
  | decode =>
    obtain ⟨inp, out, ⟨⟨-, -, h2, -⟩, -⟩, ⟨-, rfl⟩ | ⟨-, rfl⟩⟩ := execDecode_next h
    · exact .inl rfl
    · exact .inr ⟨_, _, h2, rfl, decodeRun_sameOutside inp out s.mem⟩
  | decip =>
    obtain ⟨buf, ⟨⟨h0, -⟩, -⟩, ⟨-, rfl⟩ | ⟨-, rfl⟩⟩ := execDecip_next h
    · exact .inl rfl
    · exact .inr ⟨_, _, h0, rfl, decodeRun_sameOutside buf buf s.mem⟩

/-- A byte that a command changes lies in the RESULT bytes of its output window. -/
theorem exec_changes_output {i : Instr} {s t : State} {a : Nat} (h : exec i s = .next t)
    (changed : Memory.read t.mem a ≠ Memory.read s.mem a) :
    ∃ base count, outputBase s i = .value base ∧ t.result = .value count ∧ base ≤ a ∧ a < base + count := by
  obtain e | ⟨base, count, hb, hc, frame⟩ := exec_sameOutside h
  · exact absurd (by rw [e]) changed
  · have inside := mt (frame a) changed
    exact ⟨base, count, hb, hc, by omega⟩

theorem hostReadReg_mem (r : RegName) (s : State) : (hostReadReg r s).mem = s.mem := by
  rcases hostReadReg_cases r s with ⟨v, e⟩ | ⟨x, e⟩ <;> rw [e] <;> rfl

/-- Settles O25: of the host's actions only a write of MEM, at its address, and a command that ends ok, in its output
window, change a byte. -/
theorem onlyHostWritesAndCommandsChangeMemory : Obligations.OnlyHostWritesAndCommandsChangeMemory := by
  intro s t a h changed
  obtain ⟨-, ⟨-, rfl⟩ | ⟨act, rest, hl, ha⟩⟩ := step_next h
  · exact absurd rfl changed
  refine ⟨rest, ?_⟩
  obtain ⟨k, v, -, -, rfl⟩ | ⟨v, rfl, rfl⟩ | ⟨v, -, rfl⟩ | ⟨x, b, rfl, -, rfl⟩ | ⟨r, -, rfl⟩ | ⟨x, -, -, rfl⟩ |
      ⟨-, rfl⟩ := hostAct_next_cases ha
  · exact absurd (by rw [writeArg_mem]) changed
  · rcases issueCommand_cases v { s with hostActions := rest } with ⟨i, hd, he⟩ | ⟨x, e⟩
    · obtain ⟨base, count, hb, hc, le, lt⟩ := exec_changes_output he changed
      exact .inr ⟨v, i, base, count, hl, hd, by cases i <;> exact hb, hc, le, lt⟩
    · exact absurd (by rw [e]; rfl) changed
  · exact absurd rfl changed
  · obtain rfl : a = x := by
      by_contra ne
      exact changed (Memory.read_write_other s.mem x a b ne)
    exact .inl ⟨b, hl⟩
  · exact absurd (by rw [hostReadReg_mem]) changed
  · exact absurd rfl changed
  · exact absurd rfl changed

end Sys2Proof.Machine

/-! ### What a command sees of MEM (20_memory.md R44): two runs in lockstep -/

namespace Sys2Proof.Machine

/-- The addresses of a window (20_memory.md R33). -/
abbrev Window.addrs (x : Window) : Set Nat := Set.Ico x.base (x.base + x.len)

theorem Window.mem_addrs {x : Window} {k : Nat} (h : k < x.len) : x.base + k ∈ x.addrs :=
  ⟨Nat.le_add_right _ _, Nat.add_lt_add_left h _⟩

/-- The two memories read alike at the addresses of `A`. -/
abbrev Memory.EqOn (A : Set Nat) (m n : Memory) : Prop := Set.EqOn (Memory.read m) (Memory.read n) A

/-- The same write to two memories that read alike on `A` makes them read alike at its address too. -/
theorem Memory.EqOn.write {A B : Set Nat} {m n : Memory} (h : Memory.EqOn A m n) {a : Nat} (b : Byte)
    (sub : B ⊆ insert a A) : Memory.EqOn B (Memory.write m a b) (Memory.write n a b) := by
  intro x hx
  rw [Memory.read_write, Memory.read_write]
  split_ifs with hxa
  · rfl
  · exact h ((sub hx).resolve_left hxa)

theorem Window.addrs_succ_subset (base len : Nat) :
    Window.addrs ⟨base, len + 1⟩ ⊆ insert (base + len) (Window.addrs ⟨base, len⟩) := by
  intro a ha
  simp only [Set.mem_insert_iff, Set.mem_Ico] at ha ⊢
  omega

/-! #### ENCODE -/

/-- Where two ENCODEs of one input read alike while they run: in the input window, and at every output offset below
`o` but the one reserved for the current block's code. -/
def encodeKnown (inp out : Window) (o slot : Nat) : Set Nat :=
  inp.addrs ∪ Window.addrs ⟨out.base, o⟩ \ {out.base + slot}

theorem mem_encodeKnown {inp out : Window} {o slot a : Nat} :
    a ∈ encodeKnown inp out o slot ↔
      (inp.base ≤ a ∧ a < inp.base + inp.len) ∨ (out.base ≤ a ∧ a < out.base + o) ∧ a ≠ out.base + slot :=
  Iff.rfl

/-- A literal is written at the next free offset. -/
theorem encodeKnown_literal_subset (inp out : Window) (o slot : Nat) :
    encodeKnown inp out (o + 1) slot ⊆ insert (out.base + o) (encodeKnown inp out o slot) := by
  intro a ha
  rw [mem_encodeKnown] at ha
  rw [Set.mem_insert_iff, mem_encodeKnown]
  omega

/-- A finished block's code is written at the reserved offset, and the next free one is reserved. -/
theorem encodeKnown_finish_subset (inp out : Window) (o slot : Nat) :
    encodeKnown inp out (o + 1) o ⊆ insert (out.base + slot) (encodeKnown inp out o slot) := by
  intro a ha
  rw [mem_encodeKnown] at ha
  rw [Set.mem_insert_iff, mem_encodeKnown]
  omega

/-- The final code is written at the reserved offset, and no other offset is open. -/
theorem encodeKnown_final_subset (inp out : Window) (o slot : Nat) :
    Window.addrs ⟨out.base, o⟩ ⊆ insert (out.base + slot) (encodeKnown inp out o slot) := by
  intro a ha
  simp only [Set.mem_Ico] at ha
  rw [Set.mem_insert_iff, mem_encodeKnown]
  omega

/-- Two ENCODEs in lockstep: equal variables, and memories that read alike where the input determines the bytes. -/
structure EncodeVars.Lockstep (inp out : Window) (v v' : EncodeVars) : Prop where
  i_eq : v'.i = v.i
  o_eq : v'.o = v.o
  slot_eq : v'.slot = v.slot
  code_eq : v'.code = v.code
  known : Memory.EqOn (encodeKnown inp out v.o v.slot) v'.port.mem v.port.mem

/-- Both ENCODEs read the same input byte. -/
theorem EncodeVars.Lockstep.byteAt_eq {inp out : Window} {v v' : EncodeVars} (h : v.Lockstep inp out v')
    (more : v.i < inp.len) : v'.port.byteAt (inp.base + v'.i) = v.port.byteAt (inp.base + v.i) := by
  rw [h.i_eq]
  exact h.known (.inl (Window.mem_addrs more))

/-- An input byte's work as one expression in that byte. -/
theorem encodeByte_eq (inp out : Window) (v : EncodeVars) :
    encodeByte inp out v =
      if v.port.byteAt (inp.base + v.i) = Config.special then
        { port := (v.port.afterRead (inp.base + v.i)).afterWrite (out.base + v.slot) (BitVec.ofNat 8 v.code),
          i := v.i + 1, o := v.o + 1, slot := v.o, code := 1 }
      else if v.code + 1 = Config.escape ∧ v.i + 1 < inp.len then
        { port := ((v.port.afterRead (inp.base + v.i)).afterWrite (out.base + v.o)
            (v.port.byteAt (inp.base + v.i))).afterWrite (out.base + v.slot) (BitVec.ofNat 8 (v.code + 1)),
          i := v.i + 1, o := v.o + 2, slot := v.o + 1, code := 1 }
      else
        { port := (v.port.afterRead (inp.base + v.i)).afterWrite (out.base + v.o) (v.port.byteAt (inp.base + v.i)),
          i := v.i + 1, o := v.o + 1, slot := v.slot, code := v.code + 1 } := by
  rcases encodeByte_cases inp out v with ⟨hb, e⟩ | ⟨hb, noSplit, e⟩ | ⟨hb, full, more, e⟩
  · rw [e, if_pos hb]
  · rw [e, if_neg hb, if_neg noSplit]
  · rw [e, if_neg hb, if_pos ⟨full, more⟩]

/-- An input byte keeps two ENCODEs in lockstep: the byte and the code decide what it does, and are the same. -/
theorem EncodeVars.Lockstep.byte {inp out : Window} {v v' : EncodeVars} (h : v.Lockstep inp out v')
    (more : v.i < inp.len) : (encodeByte inp out v).Lockstep inp out (encodeByte inp out v') := by
  have known := h.known
  rw [encodeByte_eq, encodeByte_eq inp out v', h.byteAt_eq more, h.i_eq, h.o_eq, h.slot_eq, h.code_eq]
  split_ifs
  · exact ⟨rfl, rfl, rfl, rfl, known.write _ (encodeKnown_finish_subset ..)⟩
  · exact ⟨rfl, rfl, rfl, rfl,
      (known.write _ (encodeKnown_literal_subset ..)).write _ (encodeKnown_finish_subset ..)⟩
  · exact ⟨rfl, rfl, rfl, rfl, known.write _ (encodeKnown_literal_subset ..)⟩

theorem encodeStart_lockstep {inp : Window} (out : Window) {m n : Memory} (h : Memory.EqOn inp.addrs n m) :
    (encodeStart m).Lockstep inp out (encodeStart n) := by
  refine ⟨rfl, rfl, rfl, rfl, h.mono fun a ha => ?_⟩
  rw [mem_encodeKnown, encodeStart_o, encodeStart_slot] at ha
  rw [Set.mem_Ico]
  omega

theorem encodeScan_lockstep {inp : Window} (out : Window) {m n : Memory} (h : Memory.EqOn inp.addrs n m) {k : Nat}
    (hk : k ≤ inp.len) :
    (encodeScan inp out k (encodeStart m)).Lockstep inp out (encodeScan inp out k (encodeStart n)) := by
  induction k with
  | zero => exact encodeStart_lockstep out h
  | succ k ih =>
    rw [encodeScan_succ_last, encodeScan_succ_last]
    exact (ih (by omega)).byte (by simpa using hk)

/-- The delimiter is the same byte at the same place. -/
theorem encodeDelimiter_eqOn (out : Window) (d : Bool) {v v' : EncodeVars} (o_eq : v'.o = v.o)
    (h : Memory.EqOn (Window.addrs ⟨out.base, v.o⟩) v'.port.mem v.port.mem) :
    Memory.EqOn (Window.addrs ⟨out.base, (encodeDelimiter out d v).o⟩) (encodeDelimiter out d v').port.mem
      (encodeDelimiter out d v).port.mem := by
  cases d with
  | false => exact h
  | true =>
    rw [encodeDelimiter_true, encodeDelimiter_true, o_eq]
    exact h.write Config.special (Window.addrs_succ_subset out.base v.o)

/-- ENCODE's count and output bytes are determined by the bytes of its input window. -/
theorem encodeRun_eqOn {inp : Window} (out : Window) (d : Bool) {m n : Memory} (h : Memory.EqOn inp.addrs n m) :
    (encodeRun inp out d n).o = (encodeRun inp out d m).o ∧
      Memory.EqOn (Window.addrs ⟨out.base, (encodeRun inp out d m).o⟩) (encodeRun inp out d n).port.mem
        (encodeRun inp out d m).port.mem := by
  obtain ⟨-, o_eq, slot_eq, code_eq, known⟩ := encodeScan_lockstep out h le_rfl
  refine ⟨by rw [encodeRun_o, encodeRun_o, o_eq], encodeDelimiter_eqOn out d o_eq ?_⟩
  rw [encodeFinalCode_port, encodeFinalCode_port, slot_eq, code_eq]
  exact known.write _ (encodeKnown_final_subset ..)

/-! #### DECODE and DECIP -/

/-- Two DECODEs in lockstep: equal variables, and memories that read alike in the input window and in the output so
far. -/
structure DecodeVars.Lockstep (inp out : Window) (v v' : DecodeVars) : Prop where
  r_eq : v'.r = v.r
  w_eq : v'.w = v.w
  code_eq : v'.code = v.code
  known : Memory.EqOn (inp.addrs ∪ Window.addrs ⟨out.base, v.w⟩) v'.port.mem v.port.mem

section
variable {inp out : Window} {v v' : DecodeVars} (h : v.Lockstep inp out v')
include h

/-- Both DECODEs read the same input byte. -/
theorem DecodeVars.Lockstep.byteAt_eq (more : v.r < inp.len) :
    v'.port.byteAt (inp.base + v.r) = v.port.byteAt (inp.base + v.r) :=
  h.known (.inl (Window.mem_addrs more))

/-- The same byte, written by both at the write cursor, is known from then on. -/
theorem DecodeVars.Lockstep.known_write (b : Byte) :
    Memory.EqOn (inp.addrs ∪ Window.addrs ⟨out.base, v.w + 1⟩) (Memory.write v'.port.mem (out.base + v.w) b)
      (Memory.write v.port.mem (out.base + v.w) b) := by
  refine h.known.write b ?_
  rw [← Set.union_insert]
  exact Set.union_subset_union_right _ (Window.addrs_succ_subset out.base v.w)

theorem DecodeVars.Lockstep.readCode (more : v.r < inp.len) :
    (decodeReadCode inp v).Lockstep inp out (decodeReadCode inp v') := by
  have code_eq : (decodeReadCode inp v').code = (decodeReadCode inp v).code := by
    rw [decodeReadCode_code, decodeReadCode_code, h.r_eq, h.byteAt_eq more]
  exact ⟨congrArg (· + 1) h.r_eq, h.w_eq, code_eq, h.known⟩

theorem DecodeVars.Lockstep.copyByte (more : v.r < inp.len) :
    (decodeCopyByte inp out v).Lockstep inp out (decodeCopyByte inp out v') := by
  refine ⟨congrArg (· + 1) h.r_eq, congrArg (· + 1) h.w_eq, h.code_eq, ?_⟩
  rw [decodeCopyByte_port, decodeCopyByte_port, h.r_eq, h.w_eq, h.byteAt_eq more]
  exact h.known_write _

theorem DecodeVars.Lockstep.copy {k : Nat} (inside : v.r + k ≤ inp.len) :
    (decodeCopy inp out k v).Lockstep inp out (decodeCopy inp out k v') := by
  induction k generalizing v v' with
  | zero => exact h
  | succ k ih =>
    refine ih (h.copyByte (by omega)) ?_
    rw [decodeCopyByte_r]
    omega

/-- A block's literals lie inside the input because its code was clamped (42_decoder.md R87). -/
theorem DecodeVars.Lockstep.block (more : v.r < inp.len) :
    (decodeBlock inp out v).Lockstep inp out (decodeBlock inp out v') := by
  have code := h.readCode more
  unfold decodeBlock
  rw [code.code_eq]
  refine code.copy ?_
  have clamped := decodeReadCode_code_le inp v
  rw [decodeReadCode_r]
  omega

theorem DecodeVars.Lockstep.peek : (decodePeek inp v).Lockstep inp out (decodePeek inp v') :=
  ⟨h.r_eq, h.w_eq, h.code_eq, h.known⟩

theorem DecodeVars.Lockstep.impliedZero :
    (decodeImpliedZero out v).Lockstep inp out (decodeImpliedZero out v') := by
  unfold decodeImpliedZero
  rw [h.code_eq, h.w_eq]
  split_ifs
  · exact h
  · exact ⟨h.r_eq, rfl, rfl, h.known_write Config.special⟩

/-- The loop keeps two DECODEs in lockstep: whether it goes on depends on the read cursor and on the byte there. -/
theorem DecodeVars.Lockstep.loop (fuel : Nat) (more : v.r < inp.len) :
    (decodeLoop inp out fuel v).Lockstep inp out (decodeLoop inp out fuel v') := by
  induction fuel generalizing v v' with
  | zero => exact h
  | succ fuel ih =>
    have block := h.block more
    rw [decodeLoop, decodeLoop, block.r_eq]
    by_cases ends : inp.len ≤ (decodeBlock inp out v).r
    · rw [if_pos ends, if_pos ends]
      exact block
    · rw [if_neg ends, if_neg ends, block.byteAt_eq (not_le.1 ends)]
      split_ifs
      · exact block.peek
      · exact ih block.peek.impliedZero (by simpa using ends)

end

/-- DECODE's count and output bytes are determined by the bytes of its input window (42_decoder.md R100). -/
theorem decodeRun_eqOn {inp : Window} (out : Window) {m n : Memory} (nonempty : 0 < inp.len)
    (h : Memory.EqOn inp.addrs n m) :
    (decodeRun inp out n).w = (decodeRun inp out m).w ∧
      Memory.EqOn (Window.addrs ⟨out.base, (decodeRun inp out m).w⟩) (decodeRun inp out n).port.mem
        (decodeRun inp out m).port.mem := by
  have start : (decodeStart m).Lockstep inp out (decodeStart n) := ⟨rfl, rfl, rfl, by simpa using h⟩
  obtain ⟨-, w_eq, -, known⟩ := start.loop inp.len nonempty
  exact ⟨w_eq, known.mono Set.subset_union_right⟩

/-! #### The commands -/

/-- The outcome `o` is ok with the RESULT of `t`, and with the bytes of `t` in the first RESULT bytes from `base`. -/
def EndsAlike (base : Reg Nat) (t : State) (o : Result) : Prop :=
  ∃ t', o = .next t' ∧ t'.result = t.result ∧
    ∀ b count k, base = .value b → t.result = .value count → k < count →
      Memory.read t'.mem (b + k) = Memory.read t.mem (b + k)

/-- Two completions with the same count, and the same bytes where the output window has that many. -/
theorem endsAlike_complete (s u : State) {base : Reg Nat} {count : Nat} {m n : Memory}
    (h : ∀ b, base = .value b → Memory.EqOn (Window.addrs ⟨b, count⟩) n m) :
    EndsAlike base { s with result := .value count, mem := m } (complete count n u) := by
  refine ⟨_, rfl, rfl, fun b c k hb hc hk => ?_⟩
  cases hc
  exact h b hb (Window.mem_addrs (x := ⟨b, count⟩) hk)

theorem endsAlike_zero (s u : State) (base : Reg Nat) (n : Memory) :
    EndsAlike base { s with result := .value 0 } (complete 0 n u) :=
  endsAlike_complete s u fun b _ => by simp

/-- The loop that DECODE and DECIP share ends alike from two memories with the same input. -/
theorem endsAlike_decodeRun (s u : State) {inp : Window} (out : Window) (nonempty : 0 < inp.len)
    (h : Memory.EqOn inp.addrs u.mem s.mem) :
    EndsAlike (.value out.base)
      { s with result := .value (decodeRun inp out s.mem).w, mem := (decodeRun inp out s.mem).port.mem }
      (complete (decodeRun inp out u.mem).w (decodeRun inp out u.mem).port.mem u) := by
  obtain ⟨w_eq, bytes⟩ := decodeRun_eqOn out nonempty h
  rw [w_eq]
  refine endsAlike_complete s u fun b hb => ?_
  cases hb
  exact bytes

/-- The hypothesis about the input window, for its operands at hand. -/
theorem SameInput.eqOn {s u : State} (h : SameInput s u) {inp : Window} (h0 : s.arg0 = .value inp.base)
    (h1 : s.arg1 = .value inp.len) : Memory.EqOn inp.addrs u.mem s.mem := by
  rintro a ⟨le, lt⟩
  obtain ⟨k, rfl⟩ := Nat.exists_eq_add_of_le le
  exact h _ _ h0 h1 k (by omega)

section
variable {s u t : State} (sameCfg : s.cfg = u.cfg) (sameArgs : ∀ k, readArg s k = readArg u k)

include sameArgs in
theorem HoldsTwoWindows.of_sameArgs {inp out : Window} (h : HoldsTwoWindows s inp out) : HoldsTwoWindows u inp out := by
  obtain ⟨h0, h1, h2, h3⟩ := h
  exact ⟨(sameArgs .arg0).symm.trans h0, (sameArgs .arg1).symm.trans h1, (sameArgs .arg2).symm.trans h2,
    (sameArgs .arg3).symm.trans h3⟩

include sameArgs in
theorem HoldsOneWindow.of_sameArgs {buf : Window} (h : HoldsOneWindow s buf) : HoldsOneWindow u buf :=
  ⟨(sameArgs .arg0).symm.trans h.1, (sameArgs .arg1).symm.trans h.2⟩

include sameArgs in
theorem execBufsize_endsAlike {d : Bool} (h : execBufsize d s = .next t) :
    EndsAlike .unwritten t (execBufsize d u) := by
  rcases execBufsize_cases d s with ⟨-, e⟩ | ⟨n, h0, e⟩ <;> rw [e] at h
  · cases h
  · have h0' : readArg u .arg0 = .value n := (sameArgs .arg0).symm.trans h0
    cases h
    rw [execBufsize, withLength, withOperand_value h0']
    exact endsAlike_complete s u fun b hb => by cases hb

include sameCfg sameArgs

theorem execEncode_endsAlike {d : Bool} (sameInput : SameInput s u) (h : execEncode d s = .next t) :
    EndsAlike s.arg2 t (execEncode d u) := by
  obtain ⟨inp, out, ⟨holds, admitted⟩, ended⟩ := execEncode_next h
  obtain ⟨h0, h1, h2, -⟩ := id holds
  rw [execEncode_admitted d ⟨HoldsTwoWindows.of_sameArgs sameArgs holds, sameCfg ▸ admitted⟩, h2]
  obtain ⟨short, rfl⟩ | ⟨sized, rfl⟩ := ended
  · rw [if_neg short]
    exact endsAlike_zero s u _ u.mem
  · rw [if_pos sized]
    obtain ⟨o_eq, bytes⟩ := encodeRun_eqOn out d (sameInput.eqOn h0 h1)
    rw [o_eq]
    refine endsAlike_complete s u fun b hb => ?_
    cases hb
    exact bytes

theorem execDecode_endsAlike (sameInput : SameInput s u) (h : execDecode s = .next t) :
    EndsAlike s.arg2 t (execDecode u) := by
  obtain ⟨inp, out, ⟨holds, admitted⟩, ended⟩ := execDecode_next h
  obtain ⟨h0, h1, h2, -⟩ := id holds
  rw [execDecode_admitted ⟨HoldsTwoWindows.of_sameArgs sameArgs holds, sameCfg ▸ admitted⟩, h2]
  obtain ⟨short, rfl⟩ | ⟨sized, rfl⟩ := ended
  · rw [if_neg short]
    exact endsAlike_zero s u _ u.mem
  · rw [if_pos sized]
    exact endsAlike_decodeRun s u out (by omega) (sameInput.eqOn h0 h1)

theorem execDecip_endsAlike (sameInput : SameInput s u) (h : execDecip s = .next t) :
    EndsAlike s.arg0 t (execDecip u) := by
  obtain ⟨buf, ⟨holds, fits⟩, ended⟩ := execDecip_next h
  obtain ⟨h0, h1⟩ := id holds
  rw [execDecip_admitted ⟨HoldsOneWindow.of_sameArgs sameArgs holds, sameCfg ▸ fits⟩]
  obtain ⟨short, rfl⟩ | ⟨sized, rfl⟩ := ended
  · rw [if_neg short]
    exact endsAlike_zero s u _ u.mem
  · rw [if_pos sized, h0]
    exact endsAlike_decodeRun s u buf (by omega) (sameInput.eqOn h0 h1)

end

/-- Settles O27: the checks see only the operands and the parameter, and the loops run in lockstep, each writing the
same byte at the same address in both states. -/
theorem commandsSeeOnlyOperandsAndInput : Obligations.CommandsSeeOnlyOperandsAndInput := by
  intro i s u t sameCfg sameArgs sameInput h
  cases i with
  | bufsize d => exact execBufsize_endsAlike sameArgs h
  | encode d => exact execEncode_endsAlike sameCfg sameArgs sameInput h
  | decode => exact execDecode_endsAlike sameCfg sameArgs sameInput h
  | decip => exact execDecip_endsAlike sameCfg sameArgs sameInput h

end Sys2Proof.Machine

/-! ### Command words (30_encoding.md R50 to R54) -/

namespace Sys2Proof.Machine

/-- The three fields of a command word are all of its bits (30_encoding.md R50). -/
theorem joinFields_splitFields (v : CmdWord) : joinFields (splitFields v) = v := by
  refine BitVec.eq_of_getLsbD_eq fun k hk => ?_
  simp only [joinFields, splitFields, BitVec.getLsbD_append, BitVec.getLsbD_extractLsb', BitVec.getLsbD_ofBool]
  interval_cases k <;> simp

theorem splitFields_encode (i : Instr) : splitFields (encode i) = i.fields := by
  cases i with
  | bufsize d => exact (Laws.WordFields.bufsize d).1
  | encode d => exact (Laws.WordFields.encode d).1
  | decode => exact Laws.WordFields.decode.1
  | decip => exact Laws.WordFields.decip.1

theorem decode_of_rsv_zero {v : CmdWord} (h : (splitFields v).rsv = 0) :
    decode v = selectCommand (splitFields v).d (splitFields v).op :=
  if_pos h

theorem decode_of_rsv_ne_zero {v : CmdWord} (h : (splitFields v).rsv ≠ 0) : decode v = .reserved .reservedField :=
  if_neg h

/-- OP and D select a command exactly when they are the fields of its word (30_encoding.md R51, R52). -/
theorem selectCommand_eq_command {d : Bool} {op : BitVec 2} {i : Instr} :
    selectCommand d op = .command i ↔ i.fields = ⟨0, d, op⟩ := by
  revert d op
  cases i with
  | bufsize d => cases d <;> decide
  | encode d => cases d <;> decide
  | decode => decide
  | decip => decide

/-- A word names a command exactly when its fields are the command's. -/
theorem decode_eq_command {v : CmdWord} {i : Instr} : decode v = .command i ↔ splitFields v = i.fields := by
  by_cases h : (splitFields v).rsv = 0
  · rw [decode_of_rsv_zero h, selectCommand_eq_command, ← h]
    exact eq_comm
  · rw [decode_of_rsv_ne_zero h]
    refine ⟨(nomatch ·), fun e => absurd ?_ h⟩
    rw [e]
    cases i <;> rfl

/-- Decoding undoes encoding. -/
@[simp] theorem decode_encode (i : Instr) : decode (encode i) = .command i :=
  decode_eq_command.2 (splitFields_encode i)

/-- Settles O1: the word's fields are the instruction's, and they select it. -/
theorem decodeOfEncodeIsTheInstruction : Obligations.DecodeOfEncodeIsTheInstruction :=
  fun i _ => decode_encode i

/-- Settles O2: the word's fields are the command's, and the fields are the whole word. -/
theorem encodeOfDecodeIsTheWord : Obligations.EncodeOfDecodeIsTheWord := by
  intro v i named
  calc
    encode i = joinFields (splitFields v) := congrArg joinFields (decode_eq_command.1 named).symm
    _ = v := joinFields_splitFields v

/-! The table of 30_encoding.md R54. -/

theorem encode_bufsize (d : Bool) : encode (.bufsize d) = if d then 0x04#8 else 0x00#8 := by cases d <;> rfl

theorem encode_encode (d : Bool) : encode (.encode d) = if d then 0x05#8 else 0x01#8 := by cases d <;> rfl

theorem encode_decode : encode .decode = 0x02#8 := rfl

theorem encode_decip : encode .decip = 0x03#8 := rfl

/-- No command's word is above ENCODE.D's. -/
theorem toNat_encode_le (i : Instr) : (encode i).toNat ≤ 5 := by
  cases i with
  | bufsize d => cases d <;> decide
  | encode d => cases d <;> decide
  | decode => decide
  | decip => decide

/-- Settles O3: the six words are the commands' own, and a word of another value cannot be a command's. -/
theorem exactlySixWordsNameCommands : Obligations.ExactlySixWordsNameCommands := by
  refine ⟨decode_encode (.bufsize false), decode_encode (.bufsize true), decode_encode (.encode false),
    decode_encode (.encode true), decode_encode .decode, decode_encode .decip, fun v other => ?_⟩
  cases hd : decode v with
  | reserved why => exact ⟨why, rfl⟩
  | command i =>
    have small := toNat_encode_le i
    rw [encodeOfDecodeIsTheWord v i hd] at small
    omega

/-- Settles O4: RSV is looked at first. -/
theorem nonzeroReservedFieldIsReserved : Obligations.NonzeroReservedFieldIsReserved :=
  fun _ nonzero => decode_of_rsv_ne_zero nonzero

/-- D = 1 names no decoder (30_encoding.md R52). -/
theorem selectCommand_delimiter {op : BitVec 2} (h : op = 2 ∨ op = 3) :
    selectCommand true op = .reserved .delimiterOnDecode := by
  obtain rfl | rfl := h <;> rfl

/-- Settles O5: with RSV = 0 the word decodes to what OP and D select, OP by OP. -/
theorem opAndDelimiterFieldsSelectTheCommand : Obligations.OpAndDelimiterFieldsSelectTheCommand := by
  intro v rsv
  have selected : decode v = selectCommand (v.getLsbD 2) (v.extractLsb' 0 2) := decode_of_rsv_zero rsv
  rw [selected]
  refine ⟨fun op => ?_, fun op => ?_, fun op d => ?_, fun op d => ?_, fun op d => ?_⟩
  · exact selectCommand_eq_command.2 (by rw [op, Instr.fields])
  · exact selectCommand_eq_command.2 (by rw [op, Instr.fields])
  · exact selectCommand_eq_command.2 (by rw [op, d, Instr.fields])
  · exact selectCommand_eq_command.2 (by rw [op, d, Instr.fields])
  · rw [d, selectCommand_delimiter op]

/-- Settles O7: the step issues the word, and a reserved word's refusal is recorded in the state that latched it. -/
theorem reservedWordIsRefusedAndRecorded : Obligations.ReservedWordIsRefusedAndRecorded := by
  intro s v why rest clean ha reserved
  rw [step_writeCmd clean ha, issueCommand_reserved _ reserved]
  rfl

end Sys2Proof.Machine

/-! ### The assembler's statements (30_encoding.md R56) -/

namespace Sys2Proof.Machine

/-- The operands of a well-formed statement are values the host may write to ARG registers (30_encoding.md R55). -/
theorem statementOperands_lt {c : Config} {x : Statement} (h : x.wf c = true) :
    ∀ p ∈ statementOperands x, p.2 < c.memSize := by
  cases x <;> simpa [Statement.wf, statementOperands, and_assoc] using h

/-- Writing an ARG register does not depend on what the host has still to do. -/
theorem writeArg_setHostActions (s : State) (k : ArgIndex) (v : Nat) (acts rest : List HostAction) :
    { writeArg { s with hostActions := acts } k v with hostActions := rest } =
      writeArg { s with hostActions := rest } k v := by
  cases k <;> rfl

/-- One step per operand puts the operands in their registers, and one more issues the word. -/
theorem run_writeArgs_writeCmd (w : CmdWord) (rest : List HostAction) (ops : List (ArgIndex × Nat)) {s : State}
    (clean : s.record = none) (small : ∀ p ∈ ops, p.2 < s.cfg.memSize)
    (ha : s.hostActions = ops.map (fun p => HostAction.writeArg p.1 p.2) ++ .writeCmd w :: rest) :
    Host.Core.run Sys2Proof.core (ops.length + 1) s =
      .next (issueCommand w (writeOperands { s with hostActions := rest } ops)) := by
  induction ops generalizing s with
  | nil => rw [List.length_nil, run_succ_of_step _ (step_writeCmd clean ha), run_zero, writeOperands, List.foldl_nil]
  | cons p ops ih =>
    obtain ⟨hp, hops⟩ := List.forall_mem_cons.1 small
    have written := (step_action clean ha).trans (hostAct_writeArg hp)
    rw [List.length_cons, run_succ_of_step _ written, ih (by simpa using clean) (by simpa using hops) (by simp),
      writeArg_setHostActions, writeOperands, writeOperands, List.foldl_cons]

/-- The state in which a statement's command is performed: its operands in their registers, its word in CMD, and its
actions off the list. -/
def statementState (x : Statement) (rest : List HostAction) (s : State) : State :=
  latchCmd (encode (statementInstr x)) (writeOperands { s with hostActions := rest } (statementOperands x))

/-- A statement takes a step per operand and one more, and ends as its command does. -/
theorem run_statement {s : State} {x : Statement} {rest : List HostAction} (clean : s.record = none)
    (wf : x.wf s.cfg = true) (ha : s.hostActions = statementActions x ++ rest) :
    Host.Core.run Sys2Proof.core ((statementOperands x).length + 1) s =
      .next (settle (statementState x rest s) (exec (statementInstr x) (statementState x rest s))) := by
  rw [statementActions, List.append_assoc, List.singleton_append] at ha
  rw [run_writeArgs_writeCmd _ _ _ clean (statementOperands_lt wf) ha, issueCommand_command _ (decode_encode _),
    statementState]

/-- What a statement reaches when its command ends ok, and when it is refused. -/
theorem run_statement_outcomes {s : State} {x : Statement} {rest : List HostAction} (clean : s.record = none)
    (wf : x.wf s.cfg = true) (ha : s.hostActions = statementActions x ++ rest) {u : State}
    (hu : statementState x rest s = u) :
    (∀ t, exec (statementInstr x) u = .next t →
      Host.Core.run Sys2Proof.core ((statementOperands x).length + 1) s = .next t) ∧
    (∀ r, exec (statementInstr x) u = .refused r →
      Host.Core.run Sys2Proof.core ((statementOperands x).length + 1) s =
        .next { u with record := some (.refused r) }) := by
  have ran := run_statement clean wf ha
  rw [hu] at ran
  exact ⟨fun t ended => by rw [ran, ended, settle_next],
    fun r refused => by rw [ran, refused, settle_refused, recordStop]⟩

/-- Settles O18: each statement by the rule for all of them, in its own state. -/
theorem statementWritesOperandsThenIssues : Obligations.StatementWritesOperandsThenIssues := by
  intro s rest clean
  refine ⟨fun d n hn ha => ?_, fun d i n o cap u hi hn ho hcap ha hu => ?_, fun i l o c u hi hl ho hc ha hu => ?_,
    fun b l u hb hl ha hu => ?_⟩
  · refine (run_statement_outcomes clean (by simpa [Statement.wf] using hn) ha rfl).1 _ ?_
    rw [statementState, statementInstr, encode_bufsize]
    rfl
  · refine run_statement_outcomes clean (by simp [Statement.wf, *]) ha ?_
    rw [statementState, statementInstr, encode_encode, hu]
    rfl
  · refine run_statement_outcomes clean (by simp [Statement.wf, *]) ha ?_
    rw [statementState, statementInstr, encode_decode, hu]
    rfl
  · refine run_statement_outcomes clean (by simp [Statement.wf, *]) ha ?_
    rw [statementState, statementInstr, encode_decip, hu]
    rfl

end Sys2Proof.Machine

/-! ### DECODE of a window onto itself (30_encoding.md R57) -/

namespace Sys2Proof.Machine

/-- The overlap check never stops a DECODE of a window onto itself: the output does not begin above the input. -/
theorem execDecode_self {u : State} {buf : Window} (h : HoldsTwoWindows u buf buf) :
    execDecode u =
      if ¬ buf.Fits u.cfg then .refused .windowRange
      else if ¬ DecodeSized buf.len buf.len then complete 0 u.mem u
      else complete (decodeRun buf buf u.mem).w (decodeRun buf buf u.mem).port.mem u := by
  rw [execDecode_holds h, if_neg (fun above : _ ∧ buf.base < buf.base => lt_irrefl _ above.2)]
  simp only [and_self_iff]

/-- Completing with one count and one memory is the same outcome in any two states. -/
theorem complete_sameOutcome (count : Nat) (m : Memory) (u s : State) :
    stopReason (complete count m u) = stopReason (complete count m s) ∧
    ∀ t, complete count m s = .next t →
      ∃ t', complete count m u = .next t' ∧ t'.result = t.result ∧ t'.mem = t.mem := by
  refine ⟨rfl, fun t ended => ⟨_, rfl, ?_⟩⟩
  rw [← (complete_eq_next ..).1 ended]
  exact ⟨rfl, rfl⟩

/-- Settles O57: both commands have the same two checks left, on the same window, and then run the same loop. -/
theorem decodeOntoItselfEqualsDecip : Obligations.DecodeOntoItselfEqualsDecip := by
  intro s u buf one two cfg mem
  rw [exec, exec, execDecode_self two, execDecip_holds one, cfg, mem]
  split_ifs
  · exact complete_sameOutcome _ _ u s
  · exact complete_sameOutcome 0 _ u s
  · exact ⟨rfl, fun t ended => nomatch ended⟩

end Sys2Proof.Machine

/-! ### DECODE and DECIP against the decoder on a stream alone (42_decoder.md R87 to R94) -/

namespace Sys2Proof.Machine

/-- A window that is not empty holds its first byte and then the window that begins one later. -/
theorem Window.bytes_eq_cons (m : Memory) (base len : Nat) :
    Window.bytes ⟨base, len + 1⟩ m = Memory.read m base :: Window.bytes ⟨base + 1, len⟩ m := by
  simp [Window.bytes, List.range_succ_eq_map, Nat.add_right_comm, Nat.add_assoc, Function.comp_def]

/-- A window one byte longer holds one more byte, its last. -/
theorem Window.bytes_succ_last (m : Memory) (base len : Nat) :
    Window.bytes ⟨base, len + 1⟩ m = Window.bytes ⟨base, len⟩ m ++ [Memory.read m (base + len)] := by
  simp [Window.bytes, List.range_succ]

/-- A write outside a window leaves its bytes. -/
theorem Window.bytes_write_outside (x : Window) (m : Memory) {a : Nat} (b : Byte)
    (h : a < x.base ∨ x.base + x.len ≤ a) : x.bytes (Memory.write m a b) = x.bytes m :=
  Window.bytes_congr x _ _ fun k hk => Memory.read_write_other m a (x.base + k) b (by omega)

/-- The input bytes DECODE has still to read. -/
def DecodeVars.unread (inp : Window) (v : DecodeVars) : List Byte :=
  Window.bytes ⟨inp.base + v.r, inp.len - v.r⟩ v.port.mem

/-- The output bytes DECODE has given. -/
def DecodeVars.written (out : Window) (v : DecodeVars) : List Byte := Window.bytes ⟨out.base, v.w⟩ v.port.mem

@[simp] theorem DecodeVars.length_unread (inp : Window) (v : DecodeVars) : (v.unread inp).length = inp.len - v.r :=
  Window.length_bytes _ _

@[simp] theorem DecodeVars.length_written (out : Window) (v : DecodeVars) : (v.written out).length = v.w :=
  Window.length_bytes _ _

@[simp] theorem decodeStart_unread (inp : Window) (m : Memory) : (decodeStart m).unread inp = inp.bytes m := rfl

@[simp] theorem decodeStart_written (out : Window) (m : Memory) : (decodeStart m).written out = [] := rfl

@[simp] theorem decodePeek_unread (inp : Window) (v : DecodeVars) : (decodePeek inp v).unread inp = v.unread inp := rfl

@[simp] theorem decodePeek_written (inp out : Window) (v : DecodeVars) :
    (decodePeek inp v).written out = v.written out := rfl

@[simp] theorem decodeReadCode_written (inp out : Window) (v : DecodeVars) :
    (decodeReadCode inp v).written out = v.written out := rfl

/-- Inside the input, the next byte to read is the one at the read cursor. -/
theorem DecodeVars.unread_eq_cons {inp : Window} {v : DecodeVars} (more : v.r < inp.len) :
    v.unread inp = v.port.byteAt (inp.base + v.r) :: (decodeReadCode inp v).unread inp := by
  obtain ⟨k, hk⟩ := Nat.exists_eq_add_of_lt more
  rw [DecodeVars.unread, DecodeVars.unread, decodeReadCode_r, show inp.len - v.r = k + 1 by omega,
    show inp.len - (v.r + 1) = k by omega, Window.bytes_eq_cons]
  rfl

/-- At the end of the input nothing is left to read. -/
theorem DecodeVars.unread_eq_nil {inp : Window} {v : DecodeVars} (ends : inp.len ≤ v.r) : v.unread inp = [] := by
  rw [← List.length_eq_zero_iff, DecodeVars.length_unread]
  omega

/-- The code after clamping is the stream's (42_decoder.md R87). -/
theorem decodeReadCode_code_eq_clampCode {inp : Window} {v : DecodeVars} (more : v.r < inp.len) :
    (decodeReadCode inp v).code = clampCode (v.port.byteAt (inp.base + v.r)) ((decodeReadCode inp v).unread inp) := by
  rw [decodeReadCode_code, clampCode, DecodeVars.length_unread, decodeReadCode_r]
  congr 1
  omega

/-! The output window begins at or below the input window, or lies past its end. -/

section
variable {inp out : Window} (clear : out.base ≤ inp.base ∨ inp.base + inp.len ≤ out.base)
include clear

/-- A byte written at the write cursor, behind the bytes left to read, leaves those (42_decoder.md R94). -/
theorem DecodeVars.unread_write {v : DecodeVars} {r : Nat} (behind : v.w < r) (b : Byte) :
    Window.bytes ⟨inp.base + r, inp.len - r⟩ (Memory.write v.port.mem (out.base + v.w) b) =
      Window.bytes ⟨inp.base + r, inp.len - r⟩ v.port.mem :=
  Window.bytes_write_outside _ _ _ (by dsimp only; omega)

omit clear in
/-- A byte written at the write cursor comes after the bytes given so far. -/
theorem DecodeVars.written_write (out : Window) (v : DecodeVars) (b : Byte) :
    Window.bytes ⟨out.base, v.w + 1⟩ (Memory.write v.port.mem (out.base + v.w) b) = v.written out ++ [b] := by
  rw [Window.bytes_succ_last, Memory.read_write_same, Window.bytes_write_outside _ _ _ (Or.inr le_rfl),
    DecodeVars.written]

theorem decodeCopyByte_unread {v : DecodeVars} (behind : v.w ≤ v.r) :
    (decodeCopyByte inp out v).unread inp = (decodeReadCode inp v).unread inp :=
  DecodeVars.unread_write clear (Nat.lt_succ_of_le behind) _

omit clear in
theorem decodeCopyByte_written (inp out : Window) (v : DecodeVars) :
    (decodeCopyByte inp out v).written out = v.written out ++ [v.port.byteAt (inp.base + v.r)] :=
  DecodeVars.written_write out v _

/-- Copying literals moves them from the bytes left to read to the bytes given (42_decoder.md R89). -/
theorem decodeCopy_bytes (k : Nat) {v : DecodeVars} (behind : v.w ≤ v.r) (inside : v.r + k ≤ inp.len) :
    (decodeCopy inp out k v).written out = v.written out ++ (v.unread inp).take k ∧
      (decodeCopy inp out k v).unread inp = (v.unread inp).drop k := by
  induction k generalizing v with
  | zero => simp
  | succ k ih =>
    obtain ⟨written, unread⟩ := ih (v := decodeCopyByte inp out v) (Nat.succ_le_succ behind)
      (by rw [decodeCopyByte_r]; omega)
    rw [decodeCopy_succ, written, unread, decodeCopyByte_written, decodeCopyByte_unread clear behind,
      DecodeVars.unread_eq_cons (v := v) (by omega)]
    simp

/-- A block gives its literals and leaves what follows them (42_decoder.md R87 to R89). -/
theorem decodeBlock_bytes {v : DecodeVars} {c : Byte} {rest : List Byte} (behind : v.w ≤ v.r)
    (stream : v.unread inp = c :: rest) :
    (decodeBlock inp out v).code = clampCode c rest ∧
      (decodeBlock inp out v).written out = v.written out ++ rest.take (clampCode c rest - 1) ∧
      (decodeBlock inp out v).unread inp = rest.drop (clampCode c rest - 1) := by
  have more : v.r < inp.len := by
    have := congrArg List.length stream
    simp only [DecodeVars.length_unread, List.length_cons] at this
    omega
  rw [DecodeVars.unread_eq_cons more, List.cons.injEq] at stream
  obtain ⟨rfl, rfl⟩ := stream
  rw [← decodeReadCode_code_eq_clampCode more]
  have clamped := decodeReadCode_code_le inp v
  obtain ⟨written, unread⟩ := decodeCopy_bytes clear ((decodeReadCode inp v).code - 1) (v := decodeReadCode inp v)
    (Nat.le_succ_of_le behind) (by rw [decodeReadCode_r]; omega)
  exact ⟨decodeBlock_code inp out v, written, unread⟩

/-- The implied zero is given, if at all, and nothing left to read changes (42_decoder.md R91). -/
theorem decodeImpliedZero_bytes {v : DecodeVars} (behind : v.w < v.r) :
    (decodeImpliedZero out v).written out =
        v.written out ++ (if v.code = Config.escape then [] else [Config.special]) ∧
      (decodeImpliedZero out v).unread inp = v.unread inp := by
  rcases decodeImpliedZero_cases out v with ⟨esc, e⟩ | ⟨notEsc, e⟩ <;> rw [e]
  · simp [esc]
  · rw [if_neg notEsc]
    exact ⟨DecodeVars.written_write out v Config.special, DecodeVars.unread_write clear behind Config.special⟩

/-- The loop gives, after the bytes given so far, what the stream left to read decodes to. -/
theorem decodeLoop_written (fuel : Nat) {v : DecodeVars} (more : v.r < inp.len) (behind : v.w ≤ v.r) :
    (decodeLoop inp out fuel v).written out = v.written out ++ decodeBlocks fuel (v.unread inp) := by
  induction fuel generalizing v with
  | zero => simp [decodeBlocks]
  | succ fuel ih =>
    obtain ⟨c, rest, stream⟩ : ∃ c rest, v.unread inp = c :: rest := ⟨_, _, DecodeVars.unread_eq_cons more⟩
    obtain ⟨code, written, unread⟩ := decodeBlock_bytes clear behind stream
    have block_behind := decodeBlock_w_lt_r inp out behind
    rw [stream, decodeBlocks, ← unread, ← code]
    rcases decodeLoop_cases inp out fuel v with ⟨ends, e⟩ | ⟨goes, delim, e⟩ | ⟨goes, notDelim, e⟩ <;> rw [e]
    · rw [DecodeVars.unread_eq_nil ends, joinPayload, code, written]
    · rw [DecodeVars.unread_eq_cons goes, delim, joinPayload, if_pos rfl, decodePeek_written, code, written]
    · obtain ⟨zero_written, zero_unread⟩ :=
        decodeImpliedZero_bytes clear (v := decodePeek inp (decodeBlock inp out v)) block_behind
      have zero_w := decodeImpliedZero_w_le out (decodePeek inp (decodeBlock inp out v))
      rw [decodePeek_w] at zero_w
      rw [ih (by simpa using goes) (by rw [decodeImpliedZero_r, decodePeek_r]; omega), zero_written, zero_unread,
        decodePeek_unread, decodePeek_written, decodePeek_code, DecodeVars.unread_eq_cons goes, joinPayload,
        if_neg notDelim, written, code]
      split_ifs <;> simp

/-- DECODE's loop gives what the input window's stream decodes to, as it was at the command's start, whether the output
window lies clear of it or begins at or below it (42_decoder.md R94, R96). -/
theorem decodeRun_written (m : Memory) (nonempty : 0 < inp.len) :
    (decodeRun inp out m).written out = decodedBytes (inp.bytes m) := by
  rw [decodedBytes, Window.length_bytes]
  exact decodeLoop_written clear inp.len (v := decodeStart m) nonempty le_rfl

end

end Sys2Proof.Machine

/-! ### DECODE of a stream of well-formed blocks (30_encoding.md R58 to R62) -/

namespace Sys2Proof.Machine

/-- A stream can end at its window's end or at a delimiter, whatever follows it (30_encoding.md R62). -/
def EndsStream (tail : List Byte) : Prop := tail = [] ∨ ∃ junk, tail = Config.special :: junk

theorem joinPayload_of_endsStream {tail : List Byte} (h : EndsStream tail) (code : Nat) (lits more : List Byte) :
    joinPayload code lits tail more = lits := by
  obtain rfl | ⟨junk, rfl⟩ := h <;> rfl

/-- Before a byte that is no delimiter, the block's implied zero and the later blocks' payload follow its literals
(42_decoder.md R91). -/
theorem joinPayload_of_ne_special {x : Byte} (h : x ≠ Config.special) (code : Nat) (lits after more : List Byte) :
    joinPayload code lits (x :: after) more =
      lits ++ (if code = Config.escape then [] else [Config.special]) ++ more := by
  rw [joinPayload, if_neg h]
  split_ifs <;> simp

theorem Block.wf.code_pos {b : Block} (h : b.wf) : 0 < b.code.toNat :=
  Nat.pos_of_ne_zero fun zero => h.1 (BitVec.eq_of_toNat_eq zero)

/-- The code of a well-formed block is not clamped: its literals are all there (30_encoding.md R59). -/
theorem Block.wf.clampCode_eq {b : Block} (h : b.wf) (after : List Byte) :
    clampCode b.code (b.literals ++ after) = b.code.toNat := by
  have literals := h.2
  have code_pos := h.code_pos
  rw [clampCode, List.length_append, Nat.min_eq_left (by omega)]

/-- A well-formed block is decoded to its literals, and decoding goes on just after them (30_encoding.md R60). -/
theorem decodeBlocks_block {b : Block} (h : b.wf) (fuel : Nat) (after : List Byte) :
    decodeBlocks (fuel + 1) (b.bytes ++ after) =
      joinPayload b.code.toNat b.literals after (decodeBlocks fuel after) := by
  rw [Block.bytes, List.cons_append, decodeBlocks, h.clampCode_eq, ← h.2, List.take_left, List.drop_left]

theorem payload_cons_cons (b next : Block) (rest : List Block) :
    payload (b :: next :: rest) =
      b.literals ++ (if b.code.toNat = Config.escape then [] else [Config.special]) ++ payload (next :: rest) := rfl

theorem blocksBytes_cons (b : Block) (rest : List Block) : blocksBytes (b :: rest) = b.bytes ++ blocksBytes rest := rfl

/-- Well-formed blocks, with the stream ended after them, decode to their payload (30_encoding.md R61). -/
theorem decodeBlocks_blocksBytes {blocks : List Block} (nonempty : blocks ≠ []) (wf : ∀ b ∈ blocks, b.wf)
    {tail : List Byte} (ends : EndsStream tail) {fuel : Nat} (enough : blocks.length ≤ fuel) :
    decodeBlocks fuel (blocksBytes blocks ++ tail) = payload blocks := by
  induction blocks generalizing fuel with
  | nil => exact absurd rfl nonempty
  | cons b rest ih =>
    obtain ⟨b_wf, rest_wf⟩ := List.forall_mem_cons.1 wf
    obtain ⟨fuel, rfl⟩ : ∃ k, fuel = k + 1 := Nat.exists_eq_add_of_le' (Nat.le_of_add_left_le enough)
    rw [blocksBytes_cons, List.append_assoc, decodeBlocks_block b_wf]
    cases rest with
    | nil => exact joinPayload_of_endsStream ends _ _ _
    | cons next rest =>
      have next_code : next.code ≠ Config.special := (rest_wf next List.mem_cons_self).1
      rw [ih (List.cons_ne_nil _ _) rest_wf (Nat.le_of_succ_le_succ enough), payload_cons_cons]
      exact joinPayload_of_ne_special next_code _ _ _ _

/-- Every block has at least its code byte. -/
theorem length_le_length_blocksBytes (blocks : List Block) : blocks.length ≤ (blocksBytes blocks).length := by
  induction blocks with
  | nil => exact le_rfl
  | cons b rest ih =>
    rw [blocksBytes_cons, Block.bytes, List.length_append, List.length_cons, List.length_cons]
    omega

theorem decodedBytes_blocksBytes {blocks : List Block} (nonempty : blocks ≠ []) (wf : ∀ b ∈ blocks, b.wf)
    {tail : List Byte} (ends : EndsStream tail) : decodedBytes (blocksBytes blocks ++ tail) = payload blocks := by
  refine decodeBlocks_blocksBytes nonempty wf ends ((length_le_length_blocksBytes blocks).trans ?_)
  rw [List.length_append]
  exact Nat.le_add_right _ _

/-- An admitted and sized DECODE ends ok, with what its stream decodes to in the first RESULT bytes of its output
window (42_decoder.md R96). -/
theorem execDecode_written {s : State} {inp out : Window} (admitted : DecodeAdmitted s inp out)
    (sized : DecodeSized inp.len out.len) :
    ∃ t, exec .decode s = .next t ∧ t.result = .value (decodedBytes (inp.bytes s.mem)).length ∧
      Window.bytes ⟨out.base, (decodedBytes (inp.bytes s.mem)).length⟩ t.mem = decodedBytes (inp.bytes s.mem) := by
  obtain ⟨-, -, -, notAbove⟩ := id admitted
  have written : (decodeRun inp out s.mem).written out = decodedBytes (inp.bytes s.mem) :=
    decodeRun_written (by omega) s.mem (by omega)
  rw [← written, DecodeVars.length_written]
  exact ⟨_, (execDecode_admitted admitted).trans (if_pos sized), rfl, rfl⟩

/-- Settles O51: DECODE writes what its stream decodes to, which is the blocks' payload. -/
theorem decodeOfBlocksIsTheirPayload : Obligations.DecodeOfBlocksIsTheirPayload := by
  intro s inp out blocks junk admitted sized nonempty wf stream
  have decoded : decodedBytes (inp.bytes s.mem) = payload blocks := by
    obtain e | e := stream
    · rw [e, ← List.append_nil (blocksBytes blocks)]
      exact decodedBytes_blocksBytes nonempty wf (.inl rfl)
    · rw [e]
      exact decodedBytes_blocksBytes nonempty wf (.inr ⟨junk, rfl⟩)
  rw [← decoded]
  exact execDecode_written admitted sized

end Sys2Proof.Machine

/-! ### BUFSIZE (40_size_estimator.md R66, R67, R70) -/

namespace Sys2Proof.Machine

/-- BUFSIZE with its operand known has one outcome, and it touches only RESULT. -/
theorem exec_bufsize_value {s : State} {n : Nat} (d : Bool) (h : s.arg0 = .value n) :
    exec (.bufsize d) s = .next { s with result := .value (bufferSize n d) } :=
  withOperand_value (k := .arg0) h _

/-- Settles O28: BUFSIZE's one outcome, with the size formula as it stands in 40_size_estimator.md R66. -/
theorem bufsizeReturnsTheSizeFormula : Obligations.BufsizeReturnsTheSizeFormula :=
  fun _ _ d h => exec_bufsize_value d h

/-- Settles O29: the size is below twice the size of MEM, and ENCODE's check compares with the same number. -/
theorem bufsizeResultFitsResult : Obligations.BufsizeResultFitsResult := by
  intro s n d holds le
  have memSize_pos : 0 < s.cfg.memSize := Nat.two_pow_pos _
  have size_lt : bufferSize n d < 2 * s.cfg.memSize := bufferSize_lt (Nat.lt_of_le_pred memSize_pos le) d
  refine ⟨?_, ⟨_, exec_bufsize_value d holds, rfl⟩, fun cap => encodeFails_iff n cap d⟩
  rw [Nat.pow_succ']
  exact Nat.le_pred_of_lt size_lt

end Sys2Proof.Machine

/-! ### The length of ENCODE's output (40_size_estimator.md R68, R69, 41_encoder.md R82) -/

namespace Sys2Proof.Machine

/-- An admitted ENCODE with enough capacity ends ok, with what its scan has done. -/
theorem exec_encode_sized {s : State} {inp out : Window} {d : Bool} (admitted : EncodeAdmitted s inp out)
    (sized : bufferSize inp.len d ≤ out.len) :
    exec (.encode d) s =
      .next { s with result := .value (encodeRun inp out d s.mem).o, mem := (encodeRun inp out d s.mem).port.mem } :=
  (execEncode_admitted d admitted).trans (if_pos sized)

/-- RESULT of an admitted ENCODE with enough capacity is its scan's output length. -/
theorem exec_encode_sized_result {s t : State} {inp out : Window} {d : Bool} (admitted : EncodeAdmitted s inp out)
    (sized : bufferSize inp.len d ≤ out.len) (ended : exec (.encode d) s = .next t) :
    t.result = .value (encodeRun inp out d s.mem).o := by
  rw [exec_encode_sized admitted sized, Host.Outcome.next.injEq] at ended
  rw [← ended]

/-! #### At least one output byte per input byte -/

theorem lt_encodeByte_o (inp out : Window) (v : EncodeVars) : v.o < (encodeByte inp out v).o := by
  rcases encodeByte_cases inp out v with ⟨-, e⟩ | ⟨-, -, e⟩ | ⟨-, -, -, e⟩ <;> rw [e] <;> simp

theorem lt_encodeScan_o (inp out : Window) (m : Memory) (k : Nat) : k < (encodeScan inp out k (encodeStart m)).o := by
  induction k with
  | zero => exact Nat.one_pos
  | succ k ih =>
    rw [encodeScan_succ_last]
    exact Nat.lt_of_le_of_lt ih (lt_encodeByte_o inp out _)

/-- ENCODE gives a byte for each input byte, one code byte at least, and the delimiter (41_encoder.md R82). -/
theorem le_encodeRun_o (inp out : Window) (d : Bool) (m : Memory) :
    inp.len + 1 + delimiterLength d ≤ (encodeRun inp out d m).o := by
  rw [encodeRun_o]
  exact Nat.add_le_add_right (lt_encodeScan_o inp out m inp.len) _

/-- Settles O34: each input byte moves the output offset on, and the code bytes are no more than BUFSIZE counts. -/
theorem encodeResultIsWithinItsBounds : Obligations.EncodeResultIsWithinItsBounds :=
  fun s _ inp out d admitted sized ended => ⟨_, exec_encode_sized_result admitted sized ended,
    le_encodeRun_o inp out d s.mem, encodeRun_o_le inp out d s.mem⟩

/-! #### The longest output -/

/-- The length of the longest output over all inputs of length `n` (40_size_estimator.md R69): a block of 254 literals
at the input's end is not followed by another, so `n - 1` is divided here where BUFSIZE divides `n`. -/
def longestOutput (n : Nat) (d : Bool) : Nat := n + 1 + (n - 1) / Config.maxRun + delimiterLength d

theorem bufferSize_eq_longestOutput_succ {n : Nat} (pos : 1 ≤ n) (h : n % 254 = 0) (d : Bool) :
    bufferSize n d = longestOutput n d + 1 := by
  unfold bufferSize longestOutput Config.maxRun
  omega

theorem longestOutput_eq_bufferSize_iff (n : Nat) (d : Bool) :
    longestOutput n d = bufferSize n d ↔ n = 0 ∨ n % 254 ≠ 0 := by
  unfold bufferSize longestOutput Config.maxRun
  omega

theorem encodeRun_o_of_empty {inp : Window} (out : Window) (d : Bool) (m : Memory) (empty : inp.len = 0) :
    (encodeRun inp out d m).o = 1 + delimiterLength d := by
  rw [encodeRun_o, empty, encodeScan_zero, encodeStart_o]

/-- The last input byte forces no split (41_encoder.md R75, item 3). -/
theorem encodeByte_o_of_last {inp : Window} (out : Window) {v : EncodeVars} (last : inp.len ≤ v.i + 1) :
    (encodeByte inp out v).o = v.o + 1 := by
  rcases encodeByte_cases inp out v with ⟨-, e⟩ | ⟨-, -, e⟩ | ⟨-, -, more, -⟩
  · rw [e]
  · rw [e]
  · exact absurd more (Nat.not_lt.2 last)

/-- The whole scan gives one byte more than the scan without its last input byte. -/
theorem encodeScan_o_of_last {inp : Window} (out : Window) (m : Memory) {k : Nat} (last : inp.len = k + 1) :
    (encodeScan inp out inp.len (encodeStart m)).o = (encodeScan inp out k (encodeStart m)).o + 1 := by
  rw [last, encodeScan_succ_last]
  exact encodeByte_o_of_last out (by simp [last])

/-- Before the last input byte the splits are counted by `growth`, and that byte adds none. -/
theorem encodeRun_o_le_longestOutput (inp out : Window) (d : Bool) (m : Memory) :
    (encodeRun inp out d m).o ≤ longestOutput inp.len d := by
  rw [encodeRun_o, longestOutput, Config.maxRun]
  refine Nat.add_le_add_right ?_ _
  cases len : inp.len with
  | zero => exact le_rfl
  | succ k =>
    obtain ⟨-, code_pos, -, -, growth⟩ := encodeScan_inRange inp out m (k := k) (by omega)
    rw [encodeScan_i, encodeStart_i] at growth
    rw [← len, encodeScan_o_of_last out m len]
    omega

/-! #### Inputs with no 0x00 -/

theorem Window.read_mem_bytes (w : Window) (m : Memory) {k : Nat} (h : k < w.len) :
    Memory.read m (w.base + k) ∈ w.bytes m := by
  rw [← Window.getElem_bytes w m k (by simpa using h)]
  exact List.getElem_mem _

theorem encodeScan_o_le_bufferSize (inp out : Window) (d : Bool) (m : Memory) {k : Nat} (hk : k ≤ inp.len) :
    (encodeScan inp out k (encodeStart m)).o ≤ bufferSize inp.len d := by
  have mono := encodeScan_o_mono inp out (encodeStart m) hk
  have run_le := encodeRun_o_le inp out d m
  rw [encodeRun_o] at run_le
  exact mono.trans (Nat.le_of_add_right_le run_le)

/-- ENCODE reads the input bytes that its window held at the start: its windows share no address
(41_encoder.md R77). -/
theorem encodeScan_byteAt {inp out : Window} {d : Bool} (apart : ¬ inp.Shares out)
    (sized : bufferSize inp.len d ≤ out.len) (m : Memory) {k : Nat} (hk : k < inp.len) :
    (encodeScan inp out k (encodeStart m)).port.byteAt (inp.base + k) = Memory.read m (inp.base + k) := by
  have o_le := encodeScan_o_le_bufferSize inp out d m hk.le
  have size_pos := bufferSize_pos inp.len d
  exact encodeScan_sameOutside inp out m hk.le _ (by dsimp only [Window.Shares] at apart; omega)

/-- A byte that is not 0x00 adds 255 to the measure that `EncodeVars.InRange.growth` bounds, split or no split. -/
theorem encodeByte_growth_eq (inp out : Window) {v : EncodeVars}
    (nonzero : v.port.byteAt (inp.base + v.i) ≠ Config.special) :
    254 * (encodeByte inp out v).o + (encodeByte inp out v).code = 254 * v.o + v.code + 255 := by
  rcases encodeByte_cases inp out v with ⟨zero, -⟩ | ⟨-, -, e⟩ | ⟨-, full, -, e⟩
  · exact absurd zero nonzero
  · rw [e]
    dsimp only
    omega
  · rw [Config.escape] at full
    rw [e]
    dsimp only
    omega

section
variable {inp out : Window} {d : Bool} {m : Memory} (apart : ¬ inp.Shares out)
  (sized : bufferSize inp.len d ≤ out.len) (noZero : ∀ b ∈ inp.bytes m, b ≠ Config.special)
include apart sized noZero

/-- With no 0x00 in the input the growth bound is met exactly. -/
theorem encodeScan_growth_eq {k : Nat} (hk : k ≤ inp.len) :
    254 * (encodeScan inp out k (encodeStart m)).o + (encodeScan inp out k (encodeStart m)).code = 255 * k + 255 := by
  induction k with
  | zero => rfl
  | succ k ih =>
    have nonzero : (encodeScan inp out k (encodeStart m)).port.byteAt (inp.base + k) ≠ Config.special := by
      rw [encodeScan_byteAt apart sized m hk]
      exact noZero _ (Window.read_mem_bytes inp m hk)
    rw [encodeScan_succ_last, encodeByte_growth_eq inp out (by simpa using nonzero), ih (Nat.le_of_succ_le hk)]
    omega

/-- An input with no 0x00 reaches the longest output: before its last byte the code is at most 254, which with the
growth fixes the offset. -/
theorem encodeRun_o_eq_longestOutput : (encodeRun inp out d m).o = longestOutput inp.len d := by
  rw [encodeRun_o, longestOutput, Config.maxRun, Nat.add_right_cancel_iff]
  cases len : inp.len with
  | zero => rfl
  | succ k =>
    have growth := encodeScan_growth_eq apart sized noZero (k := k) (by omega)
    obtain ⟨-, code_pos, -, code_le_of_more, -⟩ := encodeScan_inRange inp out m (k := k) (by omega)
    rw [encodeScan_i, encodeStart_i] at code_le_of_more
    rw [← len, encodeScan_o_of_last out m len]
    omega

end

/-- Settles O35: the count of forced splits bounds the output's length, and with no 0x00 in the input it is exact. -/
theorem encodeLengthIsLongestWithoutZeros : Obligations.EncodeLengthIsLongestWithoutZeros := by
  intro s t inp out d count admitted sized ended result
  obtain ⟨-, -, -, apart⟩ := id admitted
  rw [exec_encode_sized_result admitted sized ended, Reg.value.injEq] at result
  subst result
  refine ⟨encodeRun_o_of_empty out d s.mem, fun _ => encodeRun_o_le_longestOutput inp out d s.mem, fun noZero => ?_,
    fun h => ((longestOutput_eq_bufferSize_iff inp.len d).2 (.inr h)).symm,
    fun pos h => bufferSize_eq_longestOutput_succ pos h d⟩
  have exact_length := encodeRun_o_eq_longestOutput apart sized noZero
  exact ⟨fun _ => exact_length, exact_length ▸ longestOutput_eq_bufferSize_iff inp.len d⟩

end Sys2Proof.Machine

/-! ### Segments and their encoding (41_encoder.md R79) -/

namespace Sys2Proof.Machine

theorem segments_special (rest : List Byte) : segments (Config.special :: rest) = [] :: segments rest := by
  rw [segments, if_pos rfl]

theorem segments_cons_of_ne {b : Byte} (nonzero : b ≠ Config.special) {rest seg : List Byte} {more : List (List Byte)}
    (h : segments rest = seg :: more) : segments (b :: rest) = (b :: seg) :: more := by
  rw [segments, if_neg nonzero, h]

/-- There is always a first segment. -/
theorem exists_segments_eq_cons (input : List Byte) : ∃ seg more, segments input = seg :: more := by
  induction input with
  | nil => exact ⟨[], [], rfl⟩
  | cons b rest ih =>
    obtain ⟨seg, more, e⟩ := ih
    by_cases zero : b = Config.special
    · exact ⟨[], segments rest, zero ▸ segments_special rest⟩
    · exact ⟨b :: seg, more, segments_cons_of_ne zero e⟩

/-- Bytes that are not 0x00 lengthen the first segment of what follows them. -/
theorem segments_append {lits rest seg : List Byte} {more : List (List Byte)}
    (noZero : ∀ b ∈ lits, b ≠ Config.special) (h : segments rest = seg :: more) :
    segments (lits ++ rest) = (lits ++ seg) :: more := by
  induction lits with
  | nil => exact h
  | cons b lits ih =>
    obtain ⟨nonzero, noZero⟩ := List.forall_mem_cons.1 noZero
    exact segments_cons_of_ne nonzero (ih noZero)

/-- Only the empty input is one empty segment. -/
theorem eq_nil_of_segments_eq {input : List Byte} (h : segments input = [[]]) : input = [] := by
  cases input with
  | nil => rfl
  | cons b rest =>
    obtain ⟨seg, more, e⟩ := exists_segments_eq_cons rest
    by_cases zero : b = Config.special
    · simp [zero, segments_special, e] at h
    · simp [segments_cons_of_ne zero e] at h

/-- A segment holds no 0x00. -/
theorem segments_noZero (input : List Byte) : ∀ seg ∈ segments input, ∀ b ∈ seg, b ≠ Config.special := by
  induction input with
  | nil => simp [segments]
  | cons b rest ih =>
    by_cases zero : b = Config.special
    · rw [zero, segments_special]
      exact List.forall_mem_cons.2 ⟨by simp, ih⟩
    · obtain ⟨seg, more, e⟩ := exists_segments_eq_cons rest
      rw [e, List.forall_mem_cons] at ih
      rw [segments_cons_of_ne zero e]
      exact List.forall_mem_cons.2 ⟨List.forall_mem_cons.2 ⟨zero, ih.1⟩, ih.2⟩

/-- The encoding of one segment. -/
def segmentBytes (isLast : Bool) (seg : List Byte) : List Byte := escapeBlocks seg ++ remainderBlock isLast seg

theorem encodeSegments_cons (seg : List Byte) (rest : List (List Byte)) :
    encodeSegments (seg :: rest) = segmentBytes rest.isEmpty seg ++ encodeSegments rest := by
  cases rest with
  | nil => exact (List.append_nil _).symm
  | cons next rest => rfl

theorem escapeBlocks_of_short {seg : List Byte} (short : seg.length < 254) : escapeBlocks seg = [] := by
  rw [escapeBlocks, Config.maxRun, Nat.div_eq_of_lt short]
  rfl

theorem drop_append_of_full {full : List Byte} (length : full.length = 254) (seg : List Byte) (t : Nat) :
    (full ++ seg).drop (254 * (t + 1)) = seg.drop (254 * t) := by
  rw [show 254 * (t + 1) = full.length + 254 * t by omega, List.drop_length_add_append]

/-- A run of 254 bytes is the first escape block. -/
theorem escapeBlocks_append {full : List Byte} (length : full.length = 254) (seg : List Byte) :
    escapeBlocks (full ++ seg) = BitVec.ofNat 8 Config.escape :: full ++ escapeBlocks seg := by
  have blocks : (full ++ seg).length / 254 = seg.length / 254 + 1 := by
    rw [List.length_append]
    omega
  simp only [escapeBlocks, Config.maxRun, blocks, List.range_succ_eq_map, List.flatMap_cons, List.flatMap_map,
    drop_append_of_full length]
  rw [Nat.mul_zero, List.drop_zero, List.take_left' length]

/-- A run of 254 bytes does not change the last block, unless it is all of the last segment. -/
theorem remainderBlock_append {full seg : List Byte} {isLast : Bool} (length : full.length = 254)
    (more : isLast = true → seg ≠ []) : remainderBlock isLast (full ++ seg) = remainderBlock isLast seg := by
  have blocks : (254 + seg.length) / 254 = seg.length / 254 + 1 := by omega
  have omitted : isLast = true ∧ 0 < 254 + seg.length ∧ seg.length % 254 = 0 ↔
      isLast = true ∧ 0 < seg.length ∧ seg.length % 254 = 0 :=
    and_congr_right fun last => by
      have := List.length_pos_iff.2 (more last)
      omega
  simp only [remainderBlock, Config.maxRun, List.length_append, length, Nat.add_mod_left, blocks,
    drop_append_of_full length]
  exact if_congr omitted rfl rfl

theorem segmentBytes_append {full seg : List Byte} {isLast : Bool} (length : full.length = 254)
    (more : isLast = true → seg ≠ []) :
    segmentBytes isLast (full ++ seg) = BitVec.ofNat 8 Config.escape :: full ++ segmentBytes isLast seg := by
  rw [segmentBytes, segmentBytes, escapeBlocks_append length, remainderBlock_append length more, List.append_assoc]

/-- A segment of fewer than 254 bytes is one block. -/
theorem segmentBytes_of_short {seg : List Byte} (short : seg.length < 254) (isLast : Bool) :
    segmentBytes isLast seg = BitVec.ofNat 8 (seg.length + 1) :: seg := by
  have kept : ¬ (isLast = true ∧ 0 < seg.length ∧ seg.length % 254 = 0) := by omega
  rw [segmentBytes, escapeBlocks_of_short short, remainderBlock, Config.maxRun, if_neg kept, Nat.mod_eq_of_lt short,
    Nat.div_eq_of_lt short]
  rfl

/-- A last segment of exactly 254 bytes is one block too: no empty block follows it (41_encoder.md R75, item 3). -/
theorem segmentBytes_of_full {seg : List Byte} (length : seg.length = 254) :
    segmentBytes true seg = BitVec.ofNat 8 Config.escape :: seg := by
  rw [segmentBytes, ← List.append_nil seg, escapeBlocks_append length, List.append_nil seg, remainderBlock,
    if_pos ⟨rfl, by omega, by rw [length]; rfl⟩]
  exact (List.append_nil _).trans (List.append_nil _)

/-! #### What each step of ENCODE finds of it: `lits` are the current block's literals -/

section
variable {lits rest : List Byte} (noZero : ∀ b ∈ lits, b ≠ Config.special)
include noZero

/-- At a 0x00 the current block is finished (41_encoder.md R74). -/
theorem encodeSegments_at_zero (short : lits.length < 254) :
    encodeSegments (segments (lits ++ Config.special :: rest)) =
      BitVec.ofNat 8 (lits.length + 1) :: lits ++ encodeSegments (segments rest) := by
  rw [segments_append noZero (segments_special rest), encodeSegments_cons, List.append_nil,
    segmentBytes_of_short short]

/-- After 254 literals, with more input, the current block is finished (41_encoder.md R75, item 2). -/
theorem encodeSegments_at_full (length : lits.length = 254) (more : rest ≠ []) :
    encodeSegments (segments (lits ++ rest)) =
      BitVec.ofNat 8 Config.escape :: lits ++ encodeSegments (segments rest) := by
  obtain ⟨seg, later, e⟩ := exists_segments_eq_cons rest
  have seg_more : later.isEmpty = true → seg ≠ [] := by
    rintro last rfl
    exact more (eq_nil_of_segments_eq (e.trans (by rw [List.isEmpty_iff.1 last])))
  rw [segments_append noZero e, encodeSegments_cons, segmentBytes_append length seg_more, List.append_assoc, e,
    encodeSegments_cons]

/-- At the input's end the current block is the last one (41_encoder.md R76). -/
theorem encodeSegments_at_end (le : lits.length ≤ 254) :
    encodeSegments (segments lits) = BitVec.ofNat 8 (lits.length + 1) :: lits := by
  have one : segments lits = [lits] := by simpa using segments_append noZero (rest := []) rfl
  rw [one, encodeSegments_cons, encodeSegments, List.append_nil, List.isEmpty_nil]
  obtain short | length := Nat.lt_or_eq_of_le le
  · exact segmentBytes_of_short short true
  · rw [segmentBytes_of_full length, length]
    rfl

end

end Sys2Proof.Machine

/-! ### ENCODE against the block-level encoding (41_encoder.md R79) -/

namespace Sys2Proof.Machine

/-- A window cut in two. -/
theorem Window.bytes_append (m : Memory) (base x y : Nat) :
    Window.bytes ⟨base, x + y⟩ m = Window.bytes ⟨base, x⟩ m ++ Window.bytes ⟨base + x, y⟩ m := by
  simp [Window.bytes, List.range_add, Function.comp_def, Nat.add_assoc]

/-- A byte written just past a window is the last of the window one byte longer. -/
theorem Window.bytes_write_next (m : Memory) (base len : Nat) (b : Byte) :
    Window.bytes ⟨base, len + 1⟩ (Memory.write m (base + len) b) = Window.bytes ⟨base, len⟩ m ++ [b] := by
  rw [Window.bytes_succ_last, Memory.read_write_same, Window.bytes_write_outside _ _ _ (.inr le_rfl)]

/-- The bytes of the finished blocks: those before the reserved offset. -/
def EncodeVars.finished (out : Window) (v : EncodeVars) : List Byte := Window.bytes ⟨out.base, v.slot⟩ v.port.mem

/-- The current block's literals: those after the reserved offset. -/
def EncodeVars.literals (out : Window) (v : EncodeVars) : List Byte :=
  Window.bytes ⟨out.base + v.slot + 1, v.code - 1⟩ v.port.mem

@[simp] theorem EncodeVars.length_literals (out : Window) (v : EncodeVars) : (v.literals out).length = v.code - 1 :=
  Window.length_bytes _ _

/-- ENCODE has still to read `rest` of its input `input`: the finished blocks, and then the encoding of the current
block's literals with `rest` after them, make up the encoding of all of `input`. -/
structure EncodeVars.Encodes (out : Window) (input rest : List Byte) (v : EncodeVars) : Prop where
  code_pos : 1 ≤ v.code
  slot_add_code : v.slot + v.code = v.o
  noZero : ∀ b ∈ v.literals out, b ≠ Config.special
  encoding : v.finished out ++ encodeSegments (segments (v.literals out ++ rest)) = encodeSegments (segments input)

theorem encodeStart_encodes (out : Window) (input : List Byte) (m : Memory) :
    (encodeStart m).Encodes out input input :=
  ⟨le_rfl, rfl, fun _ h => absurd h List.not_mem_nil, rfl⟩

section
variable {out : Window} {input rest : List Byte} {v : EncodeVars}

/-- The code, written at the reserved offset, stands between the finished blocks and the current one's literals. -/
theorem EncodeVars.Encodes.bytes_write_code (h : v.Encodes out input rest) (c : Byte) :
    Window.bytes ⟨out.base, v.o⟩ (Memory.write v.port.mem (out.base + v.slot) c) =
      v.finished out ++ c :: v.literals out := by
  have o_eq : v.o = v.slot + (v.code - 1 + 1) := by
    rw [← h.slot_add_code, Nat.sub_add_cancel h.code_pos]
  rw [o_eq, Window.bytes_append, Window.bytes_eq_cons, Memory.read_write_same,
    Window.bytes_write_outside _ _ _ (.inr le_rfl), Window.bytes_write_outside _ _ _ (.inl (Nat.lt_succ_self _))]
  rfl

/-- Finishing the current block, where the encoding finishes it too. -/
theorem EncodeVars.Encodes.finishBlock {rest' : List Byte} (h : v.Encodes out input rest)
    (finish : encodeSegments (segments (v.literals out ++ rest)) =
      BitVec.ofNat 8 v.code :: v.literals out ++ encodeSegments (segments rest')) :
    (encodeFinishBlock out v).Encodes out input rest' := by
  refine ⟨le_rfl, rfl, fun _ hb => absurd hb List.not_mem_nil, ?_⟩
  calc Window.bytes ⟨out.base, v.o⟩ (Memory.write v.port.mem (out.base + v.slot) (BitVec.ofNat 8 v.code)) ++
        encodeSegments (segments rest')
      = v.finished out ++ encodeSegments (segments (v.literals out ++ rest)) := by
        rw [h.bytes_write_code, finish, List.append_assoc]
    _ = encodeSegments (segments input) := h.encoding

/-- A copied byte joins the current block's literals (41_encoder.md R75, item 1). -/
theorem EncodeVars.Encodes.literal {b : Byte} (h : v.Encodes out input (b :: rest)) (nonzero : b ≠ Config.special) :
    (encodeLiteral out b v).Encodes out input rest := by
  have code_pos := h.code_pos
  have slot_add_code := h.slot_add_code
  have slot_le : v.slot ≤ v.o := by omega
  have o_eq : out.base + v.o = out.base + v.slot + 1 + (v.code - 1) := by omega
  have finished : (encodeLiteral out b v).finished out = v.finished out :=
    Window.bytes_write_outside _ _ _ (.inr (Nat.add_le_add_left slot_le _))
  have literals : (encodeLiteral out b v).literals out = v.literals out ++ [b] := by
    have next := Window.bytes_write_next v.port.mem (out.base + v.slot + 1) (v.code - 1) b
    rwa [← o_eq, Nat.sub_add_cancel code_pos] at next
  refine ⟨Nat.le_add_left 1 v.code, congrArg (· + 1) slot_add_code, ?_, ?_⟩
  · rw [literals]
    exact List.forall_mem_append.2 ⟨h.noZero, List.forall_mem_singleton.2 nonzero⟩
  · rw [finished, literals, List.append_assoc]
    exact h.encoding

/-- The forced split keeps the encoding: the block's 254 literals are an escape block of the segment they begin. -/
theorem EncodeVars.Encodes.forceSplit {inp : Window} (h : v.Encodes out input rest)
    (more : v.i + 1 < inp.len → rest ≠ []) : (encodeForceSplit inp out v).Encodes out input rest := by
  unfold encodeForceSplit
  split_ifs with split
  · obtain ⟨full, left⟩ := split
    refine h.finishBlock ?_
    rw [full]
    exact encodeSegments_at_full h.noZero (by rw [EncodeVars.length_literals, full]; rfl) (more left)
  · exact h

/-- An input byte keeps the encoding (41_encoder.md R74, R75). -/
theorem EncodeVars.Encodes.byte {inp : Window} {b : Byte} (h : v.Encodes out input (b :: rest))
    (code_le : v.code ≤ 254) (read : v.port.byteAt (inp.base + v.i) = b) (more : v.i + 1 < inp.len → rest ≠ []) :
    (encodeByte inp out v).Encodes out input rest := by
  obtain ⟨code_pos, slot_add_code, noZero, encoding⟩ := id h
  have fetched : (encodeFetch inp v).Encodes out input (b :: rest) := ⟨code_pos, slot_add_code, noZero, encoding⟩
  suffices done : EncodeVars.Encodes out input rest
      (if b = Config.special then encodeFinishBlock out (encodeFetch inp v)
        else encodeForceSplit inp out (encodeLiteral out b (encodeFetch inp v))) by
    rw [encodeByte, read]
    exact ⟨done.code_pos, done.slot_add_code, done.noZero, done.encoding⟩
  split_ifs with zero
  · refine fetched.finishBlock ?_
    have finish := encodeSegments_at_zero (rest := rest) noZero (by rw [EncodeVars.length_literals]; omega)
    rw [EncodeVars.length_literals, Nat.sub_add_cancel code_pos, ← zero] at finish
    exact finish
  · exact (fetched.literal zero).forceSplit more

end

/-- The delimiter comes after the output so far (30_encoding.md R62). -/
theorem encodeDelimiter_bytes (out : Window) (d : Bool) (v : EncodeVars) :
    Window.bytes ⟨out.base, (encodeDelimiter out d v).o⟩ (encodeDelimiter out d v).port.mem =
      Window.bytes ⟨out.base, v.o⟩ v.port.mem ++ delimiterBytes d := by
  cases d with
  | false => exact (List.append_nil _).symm
  | true => exact Window.bytes_write_next v.port.mem out.base v.o Config.special

section
variable {inp out : Window} {d : Bool} (apart : ¬ inp.Shares out) (sized : bufferSize inp.len d ≤ out.len) (m : Memory)
include apart sized

theorem encodeScan_encodes {k : Nat} (hk : k ≤ inp.len) :
    (encodeScan inp out k (encodeStart m)).Encodes out (inp.bytes m) ((inp.bytes m).drop k) := by
  induction k with
  | zero => exact encodeStart_encodes out _ m
  | succ k ih =>
    have hlen : k < (inp.bytes m).length := by simpa using hk
    have before := ih (Nat.le_of_succ_le hk)
    rw [List.drop_eq_getElem_cons hlen, Window.getElem_bytes] at before
    have code_le := (encodeScan_inRange inp out m (Nat.le_of_succ_le hk)).code_le_of_more
    rw [encodeScan_succ_last]
    refine before.byte (code_le (by simpa using hk)) ?_ fun more => ?_
    · simpa using encodeScan_byteAt apart sized m hk
    · simpa using more

/-- The output before the delimiter: the final code completes the last block (41_encoder.md R76). -/
theorem encodeFinalCode_bytes :
    Window.bytes ⟨out.base, (encodeScan inp out inp.len (encodeStart m)).o⟩
      (encodeFinalCode out (encodeScan inp out inp.len (encodeStart m))).port.mem =
        encodeSegments (segments (inp.bytes m)) := by
  have scan := encodeScan_encodes apart sized m le_rfl
  have code_le := (encodeScan_inRange inp out m le_rfl).code_le
  have last := encodeSegments_at_end scan.noZero (by rw [EncodeVars.length_literals]; omega)
  rw [EncodeVars.length_literals, Nat.sub_add_cancel scan.code_pos] at last
  rw [← scan.encoding, List.drop_of_length_le (by simp), List.append_nil, last]
  exact scan.bytes_write_code _

/-- ENCODE's output is the block-level encoding of its input (41_encoder.md R79). -/
theorem encodeRun_bytes :
    Window.bytes ⟨out.base, (encodeRun inp out d m).o⟩ (encodeRun inp out d m).port.mem =
      encodedBytes (inp.bytes m) d := by
  rw [encodeRun, encodeDelimiter_bytes, encodedBytes, ← encodeFinalCode_bytes apart sized m]
  rfl

theorem encodeRun_o_eq_length : (encodeRun inp out d m).o = (encodedBytes (inp.bytes m) d).length := by
  rw [← encodeRun_bytes apart sized, Window.length_bytes]

end

/-- Settles O36: the invariant `EncodeVars.Encodes`, kept by every input byte, gives the bytes, and what the scan leaves
unchanged gives the frame. -/
theorem encodeWritesTheBlockLevelEncoding : Obligations.EncodeWritesTheBlockLevelEncoding := by
  intro s inp out d admitted sized
  obtain ⟨-, -, -, apart⟩ := id admitted
  rw [← encodeRun_o_eq_length apart sized]
  exact ⟨_, exec_encode_sized admitted sized, rfl, rfl, encodeRun_bytes apart sized s.mem,
    encodeRun_sameOutside inp out d s.mem⟩

end Sys2Proof.Machine

/-! ### ENCODE's output has no 0x00 but the delimiter (41_encoder.md R81) -/

namespace Sys2Proof.Machine

/-- A code byte is not 0x00 (41_encoder.md R78). -/
theorem ofNat_ne_special {c : Nat} (pos : 1 ≤ c) (le : c ≤ 255) : BitVec.ofNat 8 c ≠ Config.special := by
  rw [Config.special]
  bv_omega

theorem escapeBlocks_noZero {seg : List Byte} (noZero : ∀ b ∈ seg, b ≠ Config.special) :
    ∀ b ∈ escapeBlocks seg, b ≠ Config.special := by
  intro b hb
  obtain ⟨t, -, ht⟩ := List.mem_flatMap.1 hb
  obtain rfl | hb := List.mem_cons.1 ht
  · decide
  · exact noZero b (List.mem_of_mem_drop (List.mem_of_mem_take hb))

theorem remainderBlock_noZero (isLast : Bool) {seg : List Byte} (noZero : ∀ b ∈ seg, b ≠ Config.special) :
    ∀ b ∈ remainderBlock isLast seg, b ≠ Config.special := by
  unfold remainderBlock
  split_ifs
  · simp
  · have code_le : seg.length % Config.maxRun + 1 ≤ 254 := Nat.mod_lt _ (by decide)
    exact List.forall_mem_cons.2 ⟨ofNat_ne_special (Nat.le_add_left 1 _) (Nat.le_succ_of_le code_le),
      fun b hb => noZero b (List.mem_of_mem_drop hb)⟩

theorem encodeSegments_noZero {segs : List (List Byte)} (noZero : ∀ seg ∈ segs, ∀ b ∈ seg, b ≠ Config.special) :
    ∀ b ∈ encodeSegments segs, b ≠ Config.special := by
  induction segs with
  | nil => simp [encodeSegments]
  | cons seg rest ih =>
    obtain ⟨seg_noZero, rest_noZero⟩ := List.forall_mem_cons.1 noZero
    rw [encodeSegments_cons]
    exact List.forall_mem_append.2
      ⟨List.forall_mem_append.2 ⟨escapeBlocks_noZero seg_noZero, remainderBlock_noZero _ seg_noZero⟩, ih rest_noZero⟩

/-- The one 0x00 of an encoding is the delimiter. -/
theorem encodedBytes_getElem_eq_special_iff (input : List Byte) (d : Bool) {k : Nat}
    (h : k < (encodedBytes input d).length) :
    (encodedBytes input d)[k] = Config.special ↔ d = true ∧ k + 1 = (encodedBytes input d).length := by
  have noZero := encodeSegments_noZero (segments_noZero input)
  cases d with
  | false =>
    have nonzero := noZero _ (List.getElem_mem (n := k) (by simpa [encodedBytes, delimiterBytes] using h))
    simpa [encodedBytes, delimiterBytes] using nonzero
  | true =>
    by_cases last : k = (encodeSegments (segments input)).length
    · simp [encodedBytes, delimiterBytes, last]
    · have inside : k < (encodeSegments (segments input)).length := by
        simp only [encodedBytes, delimiterBytes, if_pos, List.length_append, List.length_singleton] at h
        omega
      simpa [encodedBytes, delimiterBytes, List.getElem_append_left inside, last] using
        noZero _ (List.getElem_mem inside)

/-- A byte of a window whose bytes are known. -/
theorem Window.read_eq_getElem {x : Window} {m : Memory} {bytes : List Byte} (h : x.bytes m = bytes) {k : Nat}
    (hk : k < bytes.length) : Memory.read m (x.base + k) = bytes[k] := by
  subst h
  exact (Window.getElem_bytes x m k hk).symm

/-- Settles O41: RESULT counts the bytes of the encoding, whose one 0x00 is the delimiter. -/
theorem encodeOutputHasNoZeroButTheDelimiter : Obligations.EncodeOutputHasNoZeroButTheDelimiter := by
  intro s t inp out d admitted sized ended
  obtain ⟨t', ended', -, result, bytes, -⟩ := encodeWritesTheBlockLevelEncoding s inp out d admitted sized
  obtain rfl : t = t' := Host.Outcome.next.inj (ended.symm.trans ended')
  refine ⟨_, result, fun k hk => ?_⟩
  have read : Memory.read t.mem (out.base + k) = _ := Window.read_eq_getElem bytes hk
  rw [read]
  exact encodedBytes_getElem_eq_special_iff _ d hk

end Sys2Proof.Machine

/-! ### The accesses of ENCODE's scan (41_encoder.md R71, R77, 20_memory.md R43) -/

namespace Sys2Proof.Machine

/-- The addresses of the first `count` output offsets. -/
def outputAddrs (out : Window) (count : Nat) : List Nat := (List.range count).map fun k => out.base + k

/-- One more offset, in any order. -/
theorem outputAddrs_succ_perm {out : Window} {o : Nat} {addrs : List Nat} (h : addrs.Perm (outputAddrs out o)) :
    ((out.base + o) :: addrs).Perm (outputAddrs out (o + 1)) := by
  rw [outputAddrs, List.range_succ, List.map_append]
  exact (h.cons _).trans (List.perm_append_singleton _ _).symm

/-- Every offset below `o` has been written once, but the one reserved for the current block's code. -/
def EncodeVars.WritesOnce (out : Window) (v : EncodeVars) : Prop :=
  ((out.base + v.slot) :: writeAddrs v.port.accesses).Perm (outputAddrs out v.o)

theorem EncodeVars.WritesOnce.byte {out : Window} {v : EncodeVars} (h : v.WritesOnce out) (inp : Window) :
    (encodeByte inp out v).WritesOnce out := by
  have literal := (List.Perm.swap _ _ _).trans (outputAddrs_succ_perm h)
  rcases encodeByte_cases inp out v with ⟨-, e⟩ | ⟨-, -, e⟩ | ⟨-, -, -, e⟩ <;> rw [e]
  · exact outputAddrs_succ_perm h
  · exact literal
  · exact outputAddrs_succ_perm literal

theorem encodeScan_writesOnce (inp out : Window) (m : Memory) (k : Nat) :
    (encodeScan inp out k (encodeStart m)).WritesOnce out := by
  induction k with
  | zero => exact List.Perm.refl _
  | succ k ih =>
    rw [encodeScan_succ_last]
    exact ih.byte inp

/-- Settles O38: only the reserved offset is open during the scan, and the final code is written there. -/
theorem encodeWritesEachOffsetOnce : Obligations.EncodeWritesEachOffsetOnce := by
  intro inp out d m
  have scan := encodeScan_writesOnce inp out m inp.len
  cases d with
  | false => exact scan
  | true => exact outputAddrs_succ_perm scan

theorem encodeByte_readAddrs (inp out : Window) (v : EncodeVars) :
    readAddrs (encodeByte inp out v).port.accesses = (inp.base + v.i) :: readAddrs v.port.accesses := by
  rcases encodeByte_cases inp out v with ⟨-, e⟩ | ⟨-, -, e⟩ | ⟨-, -, -, e⟩ <;> rw [e] <;> rfl

theorem encodeScan_readAddrs (inp out : Window) (m : Memory) (k : Nat) :
    readAddrs (encodeScan inp out k (encodeStart m)).port.accesses.reverse =
      (List.range k).map fun j => inp.base + j := by
  induction k with
  | zero => rfl
  | succ k ih =>
    rw [readAddrs_reverse] at ih ⊢
    rw [encodeScan_succ_last, encodeByte_readAddrs, List.reverse_cons, ih, List.range_succ]
    simp

theorem encodeRun_readAddrs (inp out : Window) (d : Bool) (m : Memory) :
    readAddrs (encodeRun inp out d m).port.accesses =
      readAddrs (encodeScan inp out inp.len (encodeStart m)).port.accesses := by
  cases d <;> rfl

/-- Settles O39: each input byte adds one read, at the input offset, and the final code and the delimiter add none. -/
theorem encodeReadsInputOnceInOrder : Obligations.EncodeReadsInputOnceInOrder := by
  intro inp out d m
  rw [readAddrs_reverse, encodeRun_readAddrs, ← readAddrs_reverse]
  exact encodeScan_readAddrs inp out m inp.len

end Sys2Proof.Machine

/-! ### ENCODE's capacity check and its frame (41_encoder.md R72, R77, R84) -/

namespace Sys2Proof.Machine

/-- An admitted ENCODE without the capacity ends ok, with RESULT = 0. -/
theorem exec_encode_short {s : State} {inp out : Window} {d : Bool} (admitted : EncodeAdmitted s inp out)
    (short : out.len < bufferSize inp.len d) : exec (.encode d) s = .next { s with result := .value 0 } :=
  (execEncode_admitted d admitted).trans (if_neg (Nat.not_le.2 short))

/-- Settles O30: the capacity check chooses between two completions. -/
theorem encodeCompletesWhenAdmitted : Obligations.EncodeCompletesWhenAdmitted := by
  intro s inp out d admitted
  obtain short | sized := Nat.lt_or_ge out.len (bufferSize inp.len d)
  · exact ⟨_, _, exec_encode_short admitted short, rfl, rfl⟩
  · exact ⟨_, _, exec_encode_sized admitted sized, rfl, rfl⟩

/-- Settles O32: the capacity check is against the size formula as 41_encoder.md R72 writes it. -/
theorem encodeShortCapacityReturnsZero : Obligations.EncodeShortCapacityReturnsZero :=
  fun _ _ _ _ admitted short => exec_encode_short admitted short

/-- Settles O33: with the capacity, the output has at least one byte more than the input. -/
theorem encodeZeroMeansShortCapacity : Obligations.EncodeZeroMeansShortCapacity := by
  intro s t inp out d count admitted ended result
  obtain short | sized := Nat.lt_or_ge out.len (bufferSize inp.len d)
  · rw [exec_encode_short admitted short] at ended
    cases ended
    cases result
    exact ⟨iff_of_true rfl short, fun sized => absurd short (Nat.not_lt.2 sized)⟩
  · rw [exec_encode_sized_result admitted sized ended, Reg.value.injEq] at result
    have le := le_encodeRun_o inp out d s.mem
    omega

/-- A change inside the output window leaves an input window that shares no address with it. -/
theorem Window.bytes_eq_of_sameOutside {inp out : Window} (apart : ¬ inp.Shares out) {m m' : Memory} {count : Nat}
    (le : count ≤ out.len) (h : SameOutside m m' out.base count) : inp.bytes m' = inp.bytes m :=
  Window.bytes_congr inp m' m fun k hk => h _ (by dsimp only [Window.Shares] at apart; omega)

/-- Settles O37: the scan writes only its output, which the capacity check keeps inside the output window. -/
theorem encodeFrame : Obligations.EncodeFrame := by
  intro s t inp out d admitted ended
  obtain ⟨-, -, -, apart⟩ := id admitted
  obtain short | sized := Nat.lt_or_ge out.len (bufferSize inp.len d)
  · rw [exec_encode_short admitted short] at ended
    cases ended
    exact ⟨rfl, rfl, 0, rfl, Nat.zero_le _, SameOutside.refl _ _ _⟩
  · have frame := encodeRun_sameOutside inp out d s.mem
    have count_le := (encodeRun_o_le inp out d s.mem).trans sized
    rw [exec_encode_sized admitted sized] at ended
    cases ended
    exact ⟨rfl, Window.bytes_eq_of_sameOutside apart count_le frame, _, rfl, count_le, frame⟩

end Sys2Proof.Machine

/-! ### DECODE's failure check (42_decoder.md R86) and its frame (42_decoder.md R92) -/

namespace Sys2Proof.Machine

/-- An admitted DECODE with its lengths ends ok, with what its loop has done. -/
theorem exec_decode_sized {s : State} {inp out : Window} (admitted : DecodeAdmitted s inp out)
    (sized : DecodeSized inp.len out.len) :
    exec .decode s =
      .next { s with result := .value (decodeRun inp out s.mem).w, mem := (decodeRun inp out s.mem).port.mem } :=
  (execDecode_admitted admitted).trans (if_pos sized)

/-- An admitted DECODE that fails ends ok, with RESULT = 0. -/
theorem exec_decode_short {s : State} {inp out : Window} (admitted : DecodeAdmitted s inp out)
    (short : ¬ DecodeSized inp.len out.len) : exec .decode s = .next { s with result := .value 0 } :=
  (execDecode_admitted admitted).trans (if_neg short)

/-- Settles O42: the failure check chooses between two completions. -/
theorem decodeCompletesWhenAdmitted : Obligations.DecodeCompletesWhenAdmitted := by
  intro s inp out admitted
  by_cases sized : DecodeSized inp.len out.len
  · exact ⟨_, _, exec_decode_sized admitted sized, rfl, rfl⟩
  · exact ⟨_, _, exec_decode_short admitted sized, rfl, rfl⟩

/-- Settles O44: the three conditions of 42_decoder.md R86 are the failure of the check. -/
theorem decodeFailsExactlyOnShortWindows : Obligations.DecodeFailsExactlyOnShortWindows := by
  intro s inp out admitted
  refine ⟨fun short => exec_decode_short admitted ?_, fun sized => exec_decode_sized admitted ?_⟩
  · dsimp only [DecodeSized]
    omega
  · dsimp only [DecodeSized]
    omega

/-- From a block's start inside the input, with the write cursor not past the read cursor, the loop ends with its read
cursor in the input window or at its end, and with fewer output bytes than the input has (10_state.md R27). -/
theorem decodeLoop_cursors {inp : Window} (out : Window) (fuel : Nat) {v : DecodeVars} (inside : v.r < inp.len)
    (behind : v.w ≤ v.r) :
    (decodeLoop inp out fuel v).w < inp.len ∧ (decodeLoop inp out fuel v).r ≤ inp.len := by
  induction fuel generalizing v with
  | zero => exact ⟨Nat.lt_of_le_of_lt behind inside, inside.le⟩
  | succ fuel ih =>
    have w_lt_r := decodeBlock_w_lt_r inp out behind
    obtain ⟨-, r_le⟩ := decodeBlock_r_le inp out v inside
    rcases decodeLoop_cases inp out fuel v with ⟨-, e⟩ | ⟨-, -, e⟩ | ⟨more, -, e⟩ <;> rw [e]
    · exact ⟨Nat.lt_of_lt_of_le w_lt_r r_le, r_le⟩
    · exact ⟨Nat.lt_of_lt_of_le w_lt_r r_le, r_le⟩
    · have zero_w := decodeImpliedZero_w_le out (decodePeek inp (decodeBlock inp out v))
      rw [decodePeek_w] at zero_w
      refine ih (by simpa using more) ?_
      rw [decodeImpliedZero_r, decodePeek_r]
      omega

theorem decodeRun_cursors {inp : Window} (out : Window) (m : Memory) (nonempty : 0 < inp.len) :
    (decodeRun inp out m).w < inp.len ∧ (decodeRun inp out m).r ≤ inp.len :=
  decodeLoop_cursors out inp.len (v := decodeStart m) nonempty le_rfl

/-- An input window with no byte gives no block. -/
theorem decodeRun_of_empty {inp : Window} (out : Window) (m : Memory) (empty : inp.len = 0) :
    decodeRun inp out m = decodeStart m := by
  rw [decodeRun, empty, decodeLoop_zero]

theorem decodeRun_w_le (inp out : Window) (m : Memory) : (decodeRun inp out m).w ≤ inp.len - 1 := by
  obtain empty | nonempty := Nat.eq_zero_or_pos inp.len
  · simp [decodeRun_of_empty out m empty]
  · exact Nat.le_sub_one_of_lt (decodeRun_cursors out m nonempty).1

/-- Settles O45: the loop writes only its output, of at most `L - 1` bytes, and the failure check keeps that within
`C`. -/
theorem decodeFrame : Obligations.DecodeFrame := by
  intro s t inp out admitted ended
  by_cases sized : DecodeSized inp.len out.len
  · have w_le := decodeRun_w_le inp out s.mem
    rw [exec_decode_sized admitted sized] at ended
    cases ended
    exact ⟨rfl, _, rfl, w_le, w_le.trans sized.2, decodeRun_sameOutside inp out s.mem⟩
  · rw [exec_decode_short admitted sized] at ended
    cases ended
    exact ⟨rfl, 0, rfl, Nat.zero_le _, Nat.zero_le _, SameOutside.refl _ _ _⟩

end Sys2Proof.Machine

/-! ### DECODE's loop ends (42_decoder.md R95, 70_reset_and_hazards.md R134) -/

namespace Sys2Proof.Machine

/-- Each block takes at least one input byte, so one more block than there are bytes left is never needed. -/
theorem decodeLoop_succ_fuel {inp : Window} (out : Window) {fuel : Nat} {v : DecodeVars} (inside : v.r < inp.len)
    (enough : inp.len - v.r ≤ fuel) : decodeLoop inp out (fuel + 1) v = decodeLoop inp out fuel v := by
  induction fuel generalizing v with
  | zero => omega
  | succ fuel ih =>
    have r_lt := (decodeBlock_r_le inp out v inside).1
    rw [decodeLoop, decodeLoop.eq_def inp out (fuel + 1) v]
    dsimp only
    split_ifs with ends delim
    · rfl
    · rfl
    · refine ih ?_ ?_
      · simpa using ends
      · rw [decodeImpliedZero_r, decodePeek_r]
        omega

/-- Settles O49: every block allowed beyond the first `L` changes nothing. -/
theorem decodeLoopEndsWithinInputLength : Obligations.DecodeLoopEndsWithinInputLength := by
  intro inp out m fuel nonempty enough
  refine ⟨?_, (decodeRun_cursors out m nonempty).2⟩
  induction fuel, enough using Nat.le_induction with
  | base => rfl
  | succ fuel enough ih =>
    rw [decodeLoop_succ_fuel out (v := decodeStart m) nonempty enough, ih]

end Sys2Proof.Machine

/-! ### The accesses of DECODE's loop (42_decoder.md R92, R93, R100) -/

namespace Sys2Proof.Machine

/-- One more output offset, the newest write first. -/
theorem outputAddrs_succ_reverse (out : Window) (w : Nat) :
    (outputAddrs out (w + 1)).reverse = (out.base + w) :: (outputAddrs out w).reverse := by
  simp [outputAddrs, List.range_succ]

theorem mem_outputAddrs {out : Window} {w a : Nat} : a ∈ outputAddrs out w ↔ ∃ x < w, out.base + x = a := by
  simp [outputAddrs]

/-- In the accesses of a command, the newest first: each write's output offset is below the input offset of the newest
read before it, and below that of every read after it (42_decoder.md R93). -/
def WritesBehindReads (inp out : Window) : List Access → Prop
  | [] => True
  | .read c :: older =>
    (∃ y, c = inp.base + y ∧ ∀ a ∈ writeAddrs older, ∃ x < y, a = out.base + x) ∧ WritesBehindReads inp out older
  | .write a _ :: older =>
    (∃ x y, a = out.base + x ∧ (readAddrs older).head? = some (inp.base + y) ∧ x < y) ∧
      WritesBehindReads inp out older

/-- The rule for one write, between the accesses after it and those before it. -/
theorem WritesBehindReads.at_write {inp out : Window} {newer older : List Access} {a : Nat} {b : Byte}
    (h : WritesBehindReads inp out (newer ++ .write a b :: older)) :
    ∃ x, a = out.base + x ∧ (∃ y, (readAddrs older).head? = some (inp.base + y) ∧ x < y) ∧
      ∀ c ∈ readAddrs newer, ∃ y, c = inp.base + y ∧ x < y := by
  induction newer with
  | nil =>
    obtain ⟨⟨x, y, ha, last, lt⟩, -⟩ := h
    exact ⟨x, ha, ⟨y, last, lt⟩, fun c hc => absurd hc List.not_mem_nil⟩
  | cons acc newer ih =>
    obtain ⟨x, rfl, last, later⟩ := ih (by cases acc <;> exact h.2)
    refine ⟨x, rfl, last, ?_⟩
    cases acc with
    | write _ _ => exact later
    | read c =>
      obtain ⟨⟨y, hc, ahead⟩, -⟩ := h
      obtain ⟨x', lt, same⟩ := ahead (out.base + x) (by simp)
      rw [readAddrs_read, List.forall_mem_cons]
      exact ⟨⟨y, hc, by omega⟩, later⟩

/-- What the accesses of DECODE are so far: its writes are the output offsets below `w`, in order, each behind the
reads around it, and its reads lie in the input window and not past the read cursor. -/
structure DecodeVars.Traced (inp out : Window) (v : DecodeVars) : Prop where
  writes : writeAddrs v.port.accesses = (outputAddrs out v.w).reverse
  behind : WritesBehindReads inp out v.port.accesses
  reads : ∀ c ∈ readAddrs v.port.accesses, ∃ y, c = inp.base + y ∧ y < inp.len ∧ y ≤ v.r

theorem decodeStart_traced (inp out : Window) (m : Memory) : (decodeStart m).Traced inp out :=
  ⟨rfl, trivial, fun _ hc => absurd hc List.not_mem_nil⟩

section
variable {inp out : Window} {v : DecodeVars} (h : v.Traced inp out)
include h

/-- A read at the read cursor, whether or not the cursor then moves on. -/
theorem DecodeVars.Traced.read (inside : v.r < inp.len) (behind : v.w ≤ v.r) {r code : Nat} (le : v.r ≤ r) :
    DecodeVars.Traced inp out { port := v.port.afterRead (inp.base + v.r), r := r, w := v.w, code := code } := by
  refine ⟨h.writes, ⟨⟨v.r, rfl, fun a ha => ?_⟩, h.behind⟩, ?_⟩
  · rw [h.writes, List.mem_reverse, mem_outputAddrs] at ha
    obtain ⟨x, lt, e⟩ := ha
    exact ⟨x, by omega, e.symm⟩
  · refine List.forall_mem_cons.2 ⟨⟨v.r, rfl, inside, le⟩, fun c hc => ?_⟩
    obtain ⟨y, hy, lt, y_le⟩ := h.reads c hc
    exact ⟨y, hy, lt, y_le.trans le⟩

/-- A write at the write cursor, behind the newest read. -/
theorem DecodeVars.Traced.write {y : Nat} (last : (readAddrs v.port.accesses).head? = some (inp.base + y))
    (lt : v.w < y) (b : Byte) :
    DecodeVars.Traced inp out { v with port := v.port.afterWrite (out.base + v.w) b, w := v.w + 1 } := by
  refine ⟨?_, ⟨⟨v.w, y, rfl, last, lt⟩, h.behind⟩, h.reads⟩
  rw [Port.afterWrite_accesses, writeAddrs_write, h.writes, outputAddrs_succ_reverse]

theorem DecodeVars.Traced.readCode (inside : v.r < inp.len) (behind : v.w ≤ v.r) :
    (decodeReadCode inp v).Traced inp out :=
  h.read inside behind (Nat.le_succ v.r)

theorem DecodeVars.Traced.copyByte (inside : v.r < inp.len) (behind : v.w < v.r) :
    (decodeCopyByte inp out v).Traced inp out :=
  (h.read (code := v.code) inside behind.le (Nat.le_succ v.r)).write rfl behind _

theorem DecodeVars.Traced.copy {k : Nat} (inside : v.r + k ≤ inp.len) (behind : v.w < v.r) :
    (decodeCopy inp out k v).Traced inp out := by
  induction k generalizing v with
  | zero => exact h
  | succ k ih =>
    refine ih (h.copyByte (by omega) behind) ?_ (Nat.succ_lt_succ behind)
    rw [decodeCopyByte_r]
    omega

theorem DecodeVars.Traced.block (inside : v.r < inp.len) (behind : v.w ≤ v.r) :
    (decodeBlock inp out v).Traced inp out := by
  have clamped := decodeReadCode_code_le inp v
  refine (h.readCode inside behind).copy ?_ (Nat.lt_succ_of_le behind)
  rw [decodeReadCode_r]
  omega

theorem DecodeVars.Traced.peek (inside : v.r < inp.len) (behind : v.w ≤ v.r) : (decodePeek inp v).Traced inp out :=
  h.read inside behind le_rfl

/-- The implied zero comes just after the read that looked for the delimiter (42_decoder.md R90, R91). -/
theorem DecodeVars.Traced.peekImpliedZero (inside : v.r < inp.len) (behind : v.w < v.r) :
    (decodeImpliedZero out (decodePeek inp v)).Traced inp out := by
  have peeked := h.peek inside behind.le
  rcases decodeImpliedZero_cases out (decodePeek inp v) with ⟨-, e⟩ | ⟨-, e⟩ <;> rw [e]
  · exact peeked
  · exact peeked.write rfl behind Config.special

theorem DecodeVars.Traced.loop (fuel : Nat) (inside : v.r < inp.len) (behind : v.w ≤ v.r) :
    (decodeLoop inp out fuel v).Traced inp out := by
  induction fuel generalizing v with
  | zero => exact h
  | succ fuel ih =>
    have block := h.block inside behind
    have block_behind := decodeBlock_w_lt_r inp out behind
    rcases decodeLoop_cases inp out fuel v with ⟨-, e⟩ | ⟨more, -, e⟩ | ⟨more, -, e⟩ <;> rw [e]
    · exact block
    · exact block.peek more block_behind.le
    · have zero_w := decodeImpliedZero_w_le out (decodePeek inp (decodeBlock inp out v))
      rw [decodePeek_w] at zero_w
      refine ih (block.peekImpliedZero more block_behind) (by simpa using more) ?_
      rw [decodeImpliedZero_r, decodePeek_r]
      omega

end

theorem decodeRun_traced (inp out : Window) (m : Memory) : (decodeRun inp out m).Traced inp out := by
  have start := decodeStart_traced inp out m
  obtain empty | nonempty := Nat.eq_zero_or_pos inp.len
  · rwa [decodeRun_of_empty out m empty]
  · exact start.loop inp.len nonempty le_rfl

/-- Settles O46: every write is at the write cursor, which it moves on. -/
theorem decodeWritesOffsetsInOrder : Obligations.DecodeWritesOffsetsInOrder := by
  intro inp out m
  refine ⟨?_, decodeRun_w_le inp out m⟩
  rw [writeAddrs_reverse, (decodeRun_traced inp out m).writes, List.reverse_reverse, outputAddrs]

/-- Settles O47: each write comes just after a read at an input offset above its own, and the read cursor does not go
back. -/
theorem decodeWritesStayBehindReads : Obligations.DecodeWritesStayBehindReads := by
  intro inp out m before after a b split
  have newestFirst : (decodeRun inp out m).port.accesses = after.reverse ++ .write a b :: before.reverse := by
    rw [← List.reverse_reverse (decodeRun inp out m).port.accesses, split]
    simp
  have behind := (decodeRun_traced inp out m).behind
  rw [newestFirst] at behind
  simpa using behind.at_write

/-- Settles O48: every read is at the read cursor, inside the input. -/
theorem decodeReadsStayInsideInput : Obligations.DecodeReadsStayInsideInput := by
  intro inp out m a ha
  obtain ⟨y, rfl, lt, le⟩ := (decodeRun_traced inp out m).reads a ha
  omega

end Sys2Proof.Machine

/-! ### What DECODE and DECIP give, every length of stream included (42_decoder.md R94, R96) -/

namespace Sys2Proof.Machine

/-- The outcome `o` of a command begun in `s` is ok, with RESULT the length of `bytes`, with `bytes` from `base` on, and
with nothing else changed. -/
def GivesBytes (s : State) (base : Nat) (bytes : List Byte) (o : Result) : Prop :=
  ∃ t, o = .next t ∧ OnlyResultAndMem s t ∧ t.result = .value bytes.length ∧
    Window.bytes ⟨base, bytes.length⟩ t.mem = bytes ∧ SameOutside s.mem t.mem base bytes.length

/-- A stream too short for a DECODE that does not fail has an empty payload: no literal follows a code byte that stands
alone. -/
theorem decodedBytes_of_short {stream : List Byte} (short : stream.length < 2) : decodedBytes stream = [] := by
  match stream, short with
  | [], _ => rfl
  | [c], _ =>
    simp [decodedBytes, decodeBlocks, joinPayload]

/-- From the failure check on, with the capacity for the longest payload: what the stream decodes to. -/
theorem givesBytes_decodeRun (s : State) {inp out : Window}
    (clear : out.base ≤ inp.base ∨ inp.base + inp.len ≤ out.base) (room : inp.len - 1 ≤ out.len) :
    GivesBytes s out.base (decodedBytes (inp.bytes s.mem))
      (if DecodeSized inp.len out.len then
        complete (decodeRun inp out s.mem).w (decodeRun inp out s.mem).port.mem s
      else complete 0 s.mem s) := by
  split_ifs with sized
  · rw [← decodeRun_written clear s.mem (by omega)]
    unfold GivesBytes
    rw [DecodeVars.length_written]
    exact ⟨_, rfl, rfl, rfl, rfl, decodeRun_sameOutside inp out s.mem⟩
  · have short : inp.len < 2 := Nat.not_le.1 fun le => sized ⟨le, room⟩
    rw [decodedBytes_of_short (by simpa using short)]
    exact ⟨_, rfl, rfl, rfl, rfl, SameOutside.refl _ _ _⟩

theorem exec_decode_givesBytes {s : State} {inp out : Window} (admitted : DecodeAdmitted s inp out)
    (room : inp.len - 1 ≤ out.len) :
    GivesBytes s out.base (decodedBytes (inp.bytes s.mem)) (exec .decode s) := by
  obtain ⟨-, -, -, notAbove⟩ := id admitted
  rw [exec, execDecode_admitted admitted]
  exact givesBytes_decodeRun s (by dsimp only [Window.Shares] at notAbove; omega) room

theorem exec_decip_givesBytes {s : State} {buf : Window} (admitted : DecipAdmitted s buf) :
    GivesBytes s buf.base (decodedBytes (buf.bytes s.mem)) (exec .decip s) := by
  rw [exec, execDecip_admitted admitted]
  exact givesBytes_decodeRun s (.inl le_rfl) (Nat.sub_le _ _)

/-- Settles O50: the loop never overwrites an input byte it has still to read, so what it gives is what the stream at
the issue decodes to. -/
theorem decodeWritesWhatTheStreamDetermines : Obligations.DecodeWritesWhatTheStreamDetermines :=
  fun _ _ _ admitted sized => exec_decode_givesBytes admitted sized.2

end Sys2Proof.Machine

/-! ### The round trip (42_decoder.md R98) -/

namespace Sys2Proof.Machine

/-- The payload of a block that is not the last one (30_encoding.md R61). -/
theorem payload_cons {blocks : List Block} (b : Block) (more : blocks ≠ []) :
    payload (b :: blocks) =
      b.literals ++ (if b.code.toNat = Config.escape then [] else [Config.special]) ++ payload blocks := by
  cases blocks with
  | nil => exact absurd rfl more
  | cons next rest => exact payload_cons_cons b next rest

/-- The block with these literals (30_encoding.md R58). -/
def Block.ofLiterals (lits : List Byte) : Block := ⟨BitVec.ofNat 8 (lits.length + 1), lits⟩

theorem Block.toNat_code_ofLiterals {lits : List Byte} (le : lits.length ≤ 254) :
    (Block.ofLiterals lits).code.toNat = lits.length + 1 :=
  Nat.mod_eq_of_lt (by omega)

theorem Block.ofLiterals_wf {lits : List Byte} (le : lits.length ≤ 254) : (Block.ofLiterals lits).wf := by
  refine ⟨ofNat_ne_special (Nat.le_add_left 1 _) (Nat.succ_le_succ le), ?_⟩
  rw [Block.toNat_code_ofLiterals le]
  rfl

/-- The stream is one of well-formed blocks, at least one, that carry `input` as their payload. -/
def BlocksCarry (stream input : List Byte) : Prop :=
  ∃ blocks, blocks ≠ [] ∧ (∀ b ∈ blocks, Block.wf b) ∧ blocksBytes blocks = stream ∧ payload blocks = input

theorem blocksCarry_last {lits : List Byte} (le : lits.length ≤ 254) :
    BlocksCarry (BitVec.ofNat 8 (lits.length + 1) :: lits) lits :=
  ⟨[.ofLiterals lits], by simp, by simpa using Block.ofLiterals_wf le, List.append_nil _, rfl⟩

section
variable {stream input lits : List Byte} (h : BlocksCarry stream input)
include h

theorem BlocksCarry.cons (le : lits.length ≤ 254) :
    BlocksCarry (BitVec.ofNat 8 (lits.length + 1) :: lits ++ stream)
      (lits ++ (if lits.length + 1 = Config.escape then [] else [Config.special]) ++ input) := by
  obtain ⟨blocks, more, wf, rfl, rfl⟩ := h
  refine ⟨.ofLiterals lits :: blocks, by simp, List.forall_mem_cons.2 ⟨Block.ofLiterals_wf le, wf⟩, rfl, ?_⟩
  rw [payload_cons _ more, Block.toNat_code_ofLiterals le, Block.ofLiterals]

/-- A block that is not an escape block carries a 0x00 after its literals. -/
theorem BlocksCarry.cons_short (short : lits.length < 254) :
    BlocksCarry (BitVec.ofNat 8 (lits.length + 1) :: lits ++ stream) (lits ++ Config.special :: input) := by
  have notEscape : lits.length + 1 ≠ Config.escape := (Nat.succ_lt_succ short).ne
  have carried := h.cons short.le
  rwa [if_neg notEscape, ← List.append_cons] at carried

/-- An escape block carries its literals alone. -/
theorem BlocksCarry.cons_full (length : lits.length = 254) :
    BlocksCarry (BitVec.ofNat 8 Config.escape :: lits ++ stream) (lits ++ input) := by
  have carried := h.cons length.le
  rwa [length, if_pos (by rfl), List.append_nil] at carried

end

/-- The encoding of `rest` with the current block's literals `lits` before it carries both. The cases are those of an
input byte of ENCODE: it ends the block, it fills the block, or it joins the block (41_encoder.md R74, R75). -/
theorem blocksCarry_encodeSegments {lits : List Byte} (rest : List Byte) (noZero : ∀ b ∈ lits, b ≠ Config.special)
    (short : lits.length < 254) : BlocksCarry (encodeSegments (segments (lits ++ rest))) (lits ++ rest) := by
  induction rest generalizing lits with
  | nil =>
    rw [List.append_nil, encodeSegments_at_end noZero short.le]
    exact blocksCarry_last short.le
  | cons b rest ih =>
    have fresh : BlocksCarry (encodeSegments (segments rest)) rest := ih (lits := []) (by simp) (by simp)
    by_cases zero : b = Config.special
    · rw [zero, encodeSegments_at_zero noZero short]
      exact fresh.cons_short short
    have joined : ∀ x ∈ lits ++ [b], x ≠ Config.special :=
      List.forall_mem_append.2 ⟨noZero, List.forall_mem_singleton.2 zero⟩
    rw [List.append_cons]
    by_cases full : (lits ++ [b]).length = 254
    · by_cases last : rest = []
      · rw [last, List.append_nil, encodeSegments_at_end joined full.le]
        exact blocksCarry_last full.le
      · rw [encodeSegments_at_full joined full last]
        exact fresh.cons_full full
    · exact ih joined (Nat.lt_of_le_of_ne (by simpa using short) full)

/-- The encoding of an input decodes to it, with or without the delimiter (42_decoder.md R98). -/
theorem decodedBytes_encodedBytes (input : List Byte) (d : Bool) : decodedBytes (encodedBytes input d) = input := by
  obtain ⟨blocks, nonempty, wf, stream, carried⟩ :=
    blocksCarry_encodeSegments (lits := []) input (by simp) (by simp)
  have ends : EndsStream (delimiterBytes d) := by
    cases d with
    | false => exact .inl rfl
    | true => exact .inr ⟨[], rfl⟩
  rw [encodedBytes, ← List.nil_append input, ← stream, decodedBytes_blocksBytes nonempty wf ends, carried]

/-- A successful ENCODE's output window decodes to its input. -/
theorem decodedBytes_of_encode {s t : State} {inp out : Window} {d : Bool} {len : Nat}
    (admitted : EncodeAdmitted s inp out) (sized : bufferSize inp.len d ≤ out.len)
    (ended : exec (.encode d) s = .next t) (result : t.result = .value len) :
    decodedBytes (Window.bytes ⟨out.base, len⟩ t.mem) = inp.bytes s.mem := by
  obtain ⟨t', ended', -, result', bytes, -⟩ := encodeWritesTheBlockLevelEncoding s inp out d admitted sized
  obtain rfl : t = t' := Host.Outcome.next.inj (ended.symm.trans ended')
  obtain rfl := Reg.value.inj (result.symm.trans result')
  rw [bytes, decodedBytes_encodedBytes]

/-- Settles O59: ENCODE's output is a stream of well-formed blocks that carry its input, and each decoder gives the
payload of the stream it is run on. -/
theorem decodingAnEncodingGivesTheInputBack : Obligations.DecodingAnEncodingGivesTheInputBack := by
  intro s t u inp out dst d len admitted sized ended result mem
  have decoded := decodedBytes_of_encode admitted sized ended result
  rw [← mem] at decoded
  refine ⟨fun admitted room => ?_, fun admitted => ?_⟩
  · obtain ⟨x, completes, -, given⟩ := exec_decode_givesBytes admitted room
    rw [decoded, Window.length_bytes] at given
    exact ⟨x, completes, given⟩
  · obtain ⟨x, completes, -, given⟩ := exec_decip_givesBytes admitted
    rw [decoded, Window.length_bytes] at given
    exact ⟨x, completes, given⟩

end Sys2Proof.Machine

/-! ### Two kinds of stream: the older encoder variant's, and the empty payload's (42_decoder.md R97, R99) -/

namespace Sys2Proof.Machine

theorem blocksBytes_append (blocks more : List Block) :
    blocksBytes (blocks ++ more) = blocksBytes blocks ++ blocksBytes more := List.flatMap_append

/-- The block 01 after a final escape block adds nothing: its literals are none, and no zero is implied before it. -/
theorem payload_append_empty_block {last : Block} (escape : last.code.toNat = Config.escape) (blocks : List Block) :
    payload (blocks ++ [last, Block.ofLiterals []]) = payload (blocks ++ [last]) := by
  induction blocks with
  | nil => simp [payload, escape, Block.ofLiterals]
  | cons b rest ih => rw [List.cons_append, List.cons_append, payload_cons b (by simp), payload_cons b (by simp), ih]

/-- Settles O52: with the block 01 the stream is one of well-formed blocks too, with the same payload. -/
theorem decodeOfOlderVariantStream : Obligations.DecodeOfOlderVariantStream := by
  intro s inp out blocks last admitted sized wf escape stream
  rw [← payload_append_empty_block (by rw [escape]; rfl) blocks]
  refine decodeOfBlocksIsTheirPayload s inp out (blocks ++ [last, .ofLiterals []]) [] admitted sized (by simp)
    ?_ (.inl ?_)
  · rw [List.append_cons]
    exact List.forall_mem_append.2 ⟨wf, List.forall_mem_singleton.2 (Block.ofLiterals_wf (Nat.zero_le _))⟩
  · rw [List.append_cons, blocksBytes_append, stream]
    rfl

/-- A code of 0 or 1 has no literals (42_decoder.md R88). -/
theorem decodeBlock_of_no_literals {inp : Window} (out : Window) {v : DecodeVars}
    (code : (v.port.byteAt (inp.base + v.r)).toNat ≤ 1) : decodeBlock inp out v = decodeReadCode inp v := by
  have no_literals : (decodeReadCode inp v).code - 1 = 0 := Nat.sub_eq_zero_of_le ((Nat.min_le_left _ _).trans code)
  rw [decodeBlock, no_literals, decodeCopy_zero]

/-- A block with no literals and a delimiter after it: the loop reads the two bytes and ends. -/
theorem decodeRun_of_empty_payload {inp : Window} (out : Window) {m : Memory} (two : 2 ≤ inp.len)
    (code : (Memory.read m inp.base).toNat ≤ 1) (delim : Memory.read m (inp.base + 1) = Config.special) :
    decodeRun inp out m = decodePeek inp (decodeReadCode inp (decodeStart m)) := by
  have block : decodeBlock inp out (decodeStart m) = decodeReadCode inp (decodeStart m) :=
    decodeBlock_of_no_literals out code
  obtain ⟨fuel, len⟩ : ∃ k, inp.len = k + 1 := Nat.exists_eq_add_of_le' (Nat.le_of_succ_le two)
  rw [decodeRun, len, decodeLoop, block]
  exact (if_neg (Nat.not_le.2 two)).trans (if_pos delim)

/-- Settles O53: the loop ends after the first block, which has no literals. -/
theorem decodeOfEmptyPayloadReturnsZero : Obligations.DecodeOfEmptyPayloadReturnsZero := by
  intro s inp out admitted sized first delim
  have code : (Memory.read s.mem inp.base).toNat ≤ 1 := by
    obtain e | e := first <;> rw [e] <;> decide
  rw [exec_decode_sized admitted sized, decodeRun_of_empty_payload out sized.1 code delim]
  rfl

end Sys2Proof.Machine


/-! ### DECIP's checks, its frame, and DECODE into a separate window (43_inplace_decoder.md R101 to R105) -/

namespace Sys2Proof.Machine

/-- An admitted DECIP of at least two bytes ends ok, with what DECODE's loop over the one window has done. -/
theorem exec_decip_sized {s : State} {buf : Window} (admitted : DecipAdmitted s buf) (two : 2 ≤ buf.len) :
    exec .decip s =
      .next { s with result := .value (decodeRun buf buf s.mem).w, mem := (decodeRun buf buf s.mem).port.mem } :=
  (execDecip_admitted admitted).trans (if_pos ((decodeSized_self _).2 two))

/-- An admitted DECIP of fewer than two bytes ends ok, with RESULT = 0. -/
theorem exec_decip_short {s : State} {buf : Window} (admitted : DecipAdmitted s buf) (short : buf.len < 2) :
    exec .decip s = .next { s with result := .value 0 } :=
  (execDecip_admitted admitted).trans (if_neg fun sized => Nat.not_le.2 short sized.1)

/-- Settles O55: with both windows the one buffer window, the length alone decides the failure check. -/
theorem decipFailsExactlyBelowTwoBytes : Obligations.DecipFailsExactlyBelowTwoBytes :=
  fun _ _ admitted => ⟨exec_decip_short admitted, exec_decip_sized admitted⟩

/-- Settles O54: the range is DECIP's one refusal, and past it the command gives what the stream decodes to. -/
theorem decipCompletesOrRefusesRange : Obligations.DecipCompletesOrRefusesRange := by
  intro s buf holds
  refine ⟨fun fits => ?_, fun noFit => ?_⟩
  · obtain ⟨t, completes, only, result, -⟩ := exec_decip_givesBytes ⟨holds, fits⟩
    exact ⟨t, _, completes, result, only⟩
  · exact (execDecip_holds holds).trans (if_pos noFit)

/-- A frame of the first `count` bytes keeps every byte at an offset from `count` on. -/
theorem SameOutside.tail {m m' : Memory} {base count k : Nat} (h : SameOutside m m' base count) (le : count ≤ k) :
    Memory.read m' (base + k) = Memory.read m (base + k) :=
  h _ (.inr (Nat.add_le_add_left le base))

/-- Settles O56: the loop writes only its output, of at most `L - 1` bytes from the window's start on, and the tail of
the window lies outside it. -/
theorem decipFrameKeepsTheTail : Obligations.DecipFrameKeepsTheTail := by
  intro s t buf admitted ended
  obtain short | two := Nat.lt_or_ge buf.len 2
  · rw [exec_decip_short admitted short] at ended
    cases ended
    exact ⟨rfl, 0, rfl, Nat.zero_le _, SameOutside.refl _ _ _, fun _ _ _ => rfl⟩
  · have frame := decodeRun_sameOutside buf buf s.mem
    rw [exec_decip_sized admitted two] at ended
    cases ended
    exact ⟨rfl, _, rfl, decodeRun_w_le buf buf s.mem, frame, fun _ le _ => frame.tail le⟩

/-- Settles O58: each command gives what its stream decodes to, and the two streams are the same. The separate window's
capacity `L` is room for the longest payload. -/
theorem decipMatchesDecodeIntoSeparateWindow : Obligations.DecipMatchesDecodeIntoSeparateWindow := by
  intro s u buf inp out decip decode _ inpLen outLen sameStream
  obtain ⟨t, completes, -, result, bytes, -⟩ := exec_decip_givesBytes decip
  obtain ⟨t', completes', -, result', bytes', -⟩ := exec_decode_givesBytes decode (by omega)
  rw [sameStream] at result' bytes'
  exact ⟨t, t', _, completes, completes', result, result', bytes.trans bytes'.symm⟩

end Sys2Proof.Machine

/-! ### Reset and the host's actions step by step (70_reset_and_hazards.md R121 to R125, R134) -/

namespace Sys2Proof.Machine

/-- `t` has the actions still to take and the parameter of `s`: a host action changes neither, whatever it does to the
block. -/
def KeepsScheduleAndConfig (s t : State) : Prop := t.hostActions = s.hostActions ∧ t.cfg = s.cfg

/-- A command word touches neither, whether its command ends ok or its refusal or fault is recorded. -/
theorem issueCommand_keepsScheduleAndConfig (v : CmdWord) (s : State) :
    KeepsScheduleAndConfig s (issueCommand v s) := by
  rcases issueCommand_cases v s with ⟨i, -, ended⟩ | ⟨x, recorded⟩
  · obtain ⟨count, m, e⟩ := exec_next ended
    rw [e]
    exact ⟨rfl, rfl⟩
  · rw [recorded]
    exact ⟨rfl, rfl⟩

theorem hostReadReg_keepsScheduleAndConfig (r : RegName) (s : State) :
    KeepsScheduleAndConfig s (hostReadReg r s) := by
  rcases hostReadReg_cases r s with ⟨v, e⟩ | ⟨x, e⟩ <;> rw [e] <;> exact ⟨rfl, rfl⟩

theorem hostAct_keepsScheduleAndConfig {s t : State} {a : HostAction} (h : hostAct s a = .next t) :
    KeepsScheduleAndConfig s t := by
  obtain ⟨k, v, -, -, rfl⟩ | ⟨v, -, rfl⟩ | ⟨v, -, rfl⟩ | ⟨x, b, -, -, rfl⟩ | ⟨r, -, rfl⟩ | ⟨x, -, -, rfl⟩ | ⟨-, rfl⟩ :=
    hostAct_next_cases h
  · exact ⟨writeArg_hostActions s k v, writeArg_cfg s k v⟩
  · exact issueCommand_keepsScheduleAndConfig v s
  · exact ⟨rfl, rfl⟩
  · exact ⟨rfl, rfl⟩
  · exact hostReadReg_keepsScheduleAndConfig r s
  · exact ⟨rfl, rfl⟩
  · exact ⟨rfl, rfl⟩

/-- Settles O19: a well-formed action is one the host's port answers with a next state, and none of them touches the
actions still to take or the parameter. A refused or faulted command is such an action too: its next state is the one
with the stop recorded. -/
theorem everyHostActionCompletesInOneStep : Obligations.EveryHostActionCompletesInOneStep := by
  intro s a rest clean ha wf
  obtain ⟨t, acts⟩ := (hostAct_next_iff_wf { s with hostActions := rest } a).2 wf
  obtain ⟨actions, cfg⟩ := hostAct_keepsScheduleAndConfig acts
  exact ⟨t, (step_action clean ha).trans acts, actions, cfg⟩

/-- Settles O9: the step rule for an empty list of actions (R122). -/
theorem idleBlockWaits : Obligations.IdleBlockWaits := fun _ => step_idle

/-- Settles O10: the step takes the write, which is a `writeArg`, and the rules of `writeArg` say what it leaves. -/
theorem hostWriteStoresTheArg : Obligations.HostWriteStoresTheArg := by
  intro s k v rest clean ha small
  refine ⟨writeArg { s with hostActions := rest } k v, (step_action clean ha).trans (hostAct_writeArg small),
    readArg_writeArg_same _ k v, fun j other => ?_, ?_⟩
  · rw [readArg_writeArg_other _ k j v other]
    cases j <;> rfl
  · simp [clean]

theorem hostAct_writeMem {s : State} {a : Nat} (b : Byte) (h : a < s.cfg.memSize) :
    hostAct s (.writeMem a b) = .next { s with mem := Memory.write s.mem a b } :=
  if_pos h

/-- Settles O11: the step takes the write, which is a `Memory.write`, and a read after it is by `Memory`'s laws. -/
theorem hostWriteSetsTheByte : Obligations.HostWriteSetsTheByte := by
  intro s a b rest clean ha below
  exact ⟨{ s with hostActions := rest, mem := Memory.write s.mem a b },
    (step_action clean ha).trans (hostAct_writeMem b below), Memory.read_write_same s.mem a b,
    fun x other => Memory.read_write_other s.mem a x b other, rfl⟩

theorem hostAct_reset (s : State) : hostAct s .reset = .next (applyReset s) := rfl

/-- Settles O16: the step takes the reset, which leaves every register unwritten and of the rest changes only the
record. -/
theorem resetClearsRegistersAndKeepsMemory : Obligations.ResetClearsRegistersAndKeepsMemory := by
  intro s rest clean ha
  exact ⟨applyReset { s with hostActions := rest }, (step_action clean ha).trans (hostAct_reset _),
    readReg_applyReset _, applyReset_record _, applyReset_mem _, applyReset_cfg _, applyReset_hostActions _,
    applyReset_hostGot _⟩

/-- A machine right after reset is one that a reset leaves as it is (R121). -/
theorem applyReset_resetWith (c : Config) (m : Memory) : applyReset (State.resetWith c m) = State.resetWith c m := rfl

theorem readReg_resetWith (c : Config) (m : Memory) (r : RegName) : readReg (State.resetWith c m) r = .unwritten := by
  rw [← applyReset_resetWith]
  exact readReg_applyReset _ r

/-- Settles O17: a machine right after reset is as a reset leaves it, with the given parameter and memory; `State.reset`
is one by definition. -/
theorem resetStateHoldsNoRegisterValue : Obligations.ResetStateHoldsNoRegisterValue :=
  ⟨fun c m r => ⟨readReg_resetWith c m r, resetWith_record c m, resetWith_mem c m, resetWith_cfg c m⟩, rfl⟩

/-- An unwritten register is within every width, so at reset the invariant is MEM's part of it alone. -/
theorem resetWith_wf {c : Config} {m : Memory} (mem : Memory.InBounds c.memSize m) : (State.resetWith c m).wf :=
  ⟨⟨rfl, rfl, rfl, rfl⟩, rfl, mem⟩

/-- Settles O21: the registers of a machine right after reset hold nothing, and its memory is canonical and within MEM
by hypothesis; the memory of `State.reset` lists nothing. -/
theorem resetStateIsWellFormed : Obligations.ResetStateIsWellFormed :=
  ⟨resetWith_wf ⟨Memory.wf_nil, by simp⟩, fun _ _ canonical inside => resetWith_wf ⟨canonical, inside⟩⟩

end Sys2Proof.Machine
